-- ==== Sys2Proof/Word.lean ====
section
/-! DEFINITION. The widths of the words this hardware handles (00_scope.md R9, R11, R14, R15). -/

namespace Sys2Proof

/-- A binary64 bit pattern: bit 63 sign, bits 62:52 biased exponent, bits 51:0 fraction (R11). -/
abbrev F64 := BitVec 64

/-- A 32-bit field of a command word, a 32-bit register or a 32-bit port (R9 `INT_W`, `CNT_W`). -/
abbrev Word32 := BitVec 32

/-- An index into the output space `OUT` (R9 `ADDR_W`, R40). -/
abbrev WordIndex := BitVec 32

/-- A command word (R9 `CMD_W`, R61). -/
abbrev CmdWord := BitVec 128

/-- One byte of the byte view of `OUT` (R45). -/
abbrev Byte := BitVec 8

/-- The four rounded binary64 operations (R12). -/
inductive FloatOp where
  | add | sub | mul | div
  deriving DecidableEq, Repr

end Sys2Proof
end

