-- ==== Sys2Proof/Config.lean ====
section
/-! DEFINITION. The parameters this hardware fixes (00_scope.md R9) and the free values: what the spec leaves open, as opaque
constants no proof can see into. -/

namespace Sys2Proof.Config

/-- `FADE_LEN`: frames in a full fade ramp (R9, R29, R106). -/
def fadeLen : Nat := 48

/-- `TWO_PI`: the binary64 constant used wherever the source writes 2π (R9, decision D10). -/
def twoPi : F64 := 0x401921FB54442D18#64

/-- `SIN`, the sine unit: OPEN (R13, decision D12). A total function of the operand's bits (`SIN_PURE`) and nothing more:
a claim that needs another property takes it as a hypothesis about the function it speaks of (log 6). -/
opaque sin : F64 → F64

/-- `SIN_EPS`: the named error bound the configuration supplies for `SIN_ERR` (R13): OPEN (log 6). -/
opaque sinEps : Rat

/-- The sign and payload of the NaN an operation gives on these operands: any value (R118, 93_implementation_defined.md U9;
log 7). The operation's result sets the exponent and the quiet bit. -/
opaque nanBits : FloatOp → F64 → F64 → F64

/-- What the 32-bit `envelope_counter` holds after an increment of 2^32 - 1: any value (N3, U14; log 8). No reachable state
increments that value (R24). -/
opaque counterOverflow : Word32

end Sys2Proof.Config
end

