-- ==== Sys2Proof/Machine/Binary64.lean ====
section
/-! DEFINITION. The binary64 primitives (00_scope.md R11, R12): exact result, rounded once with roundTiesToEven. Every finite
binary64 value is a whole number of units of 2^-1074 (the least subnormal), so the exact results are integers or quotients of
integers and nothing is rounded before the end. -/

namespace Sys2Proof.Machine

/-- Bit 63, the sign (R11). -/
def fSign (x : F64) : Bool := x.msb

/-- Bits 62:0 as a number: the order of magnitudes is the order of these numbers (R11). -/
def fMag (x : F64) : Nat := x.toNat % 2 ^ 63

/-- The magnitude bits of an infinity: exponent all ones, fraction zero (R11). -/
def infMag : Nat := 0x7FF * 2 ^ 52

/-- Exponent all ones, fraction not zero (R11). -/
def isNaN (x : F64) : Bool := decide (infMag < fMag x)

/-- An infinity (R11). -/
def isInf (x : F64) : Bool := decide (fMag x = infMag)

/-- Neither a NaN nor an infinity (R11). -/
def isFinite (x : F64) : Bool := decide (fMag x < infMag)

/-- Positive or negative zero (R11). -/
def isZero (x : F64) : Bool := decide (fMag x = 0)

/-- The binary64 value with this sign and these magnitude bits. -/
def pack (neg : Bool) (mag : Nat) : F64 := BitVec.ofNat 64 ((if neg then 2 ^ 63 else 0) + mag)

/-- The magnitude of a finite value in units of 2^-1074: biased exponent 0 is subnormal, otherwise the hidden bit is added and
the significand shifted (R11). -/
def unitsOfMag (mag : Nat) : Nat :=
  if mag / 2 ^ 52 = 0 then mag else (2 ^ 52 + mag % 2 ^ 52) * 2 ^ (mag / 2 ^ 52 - 1)

/-- A finite value in units of 2^-1074. -/
def units (x : F64) : Int := if fSign x then -(unitsOfMag (fMag x) : Int) else unitsOfMag (fMag x)

/-- How many low bits of a magnitude (in units) lie below a 53-bit significand. -/
def roundShift (q : Nat) : Nat := if q < 2 ^ 53 then 0 else Nat.log2 q - 52

/-- `num / den` rounded to a whole number, ties to the even one. -/
def roundHalfEven (num den : Nat) : Nat :=
  if 2 * (num % den) < den then num / den
  else if 2 * (num % den) = den then num / den + num / den % 2
  else num / den + 1

/-- The magnitude bits of the binary64 nearest to `num / den` units, ties to even; an infinity when that is too large (R11). -/
def roundMag (num den : Nat) : Nat :=
  let shift := roundShift (num / den)
  min (shift * 2 ^ 52 + roundHalfEven num (den * 2 ^ shift)) infMag

/-- The exact sum `e`, in units, rounded; `zeroSign` is the sign of a zero sum. -/
def roundUnits (zeroSign : Bool) (e : Int) : F64 :=
  if e = 0 then pack zeroSign 0 else pack (decide (e < 0)) (roundMag e.natAbs 1)

/-- A quiet NaN whose sign and payload are any value (R11 "invalid operations give a quiet NaN", R118, U9; log 7). -/
def quietNaN (op : FloatOp) (x y : F64) : F64 := Config.nanBits op x y ||| 0x7FF8000000000000#64

/-- `x` with its sign changed. -/
def fNeg (x : F64) : F64 := pack (!fSign x) (fMag x)

/-- `fadd(a, b)` (R12). -/
def fadd (x y : F64) : F64 :=
  if isNaN x || isNaN y then quietNaN .add x y
  else if isInf x then if isInf y && fSign x != fSign y then quietNaN .add x y else x
  else if isInf y then y
  else roundUnits (fSign x && fSign y) (units x + units y)

/-- `fsub(a, b)` (R12). -/
def fsub (x y : F64) : F64 :=
  if isNaN x || isNaN y then quietNaN .sub x y
  else if isInf x then if isInf y && fSign x == fSign y then quietNaN .sub x y else x
  else if isInf y then fNeg y
  else roundUnits (fSign x && !fSign y) (units x - units y)

/-- `fmul(a, b)` (R12). -/
def fmul (x y : F64) : F64 :=
  if isNaN x || isNaN y then quietNaN .mul x y
  else if isInf x || isInf y then
    if isZero x || isZero y then quietNaN .mul x y else pack (fSign x != fSign y) infMag
  else pack (fSign x != fSign y) (roundMag (unitsOfMag (fMag x) * unitsOfMag (fMag y)) (2 ^ 1074))

/-- `fdiv(a, b)` (R12). -/
def fdiv (x y : F64) : F64 :=
  if isNaN x || isNaN y then quietNaN .div x y
  else if isInf x then if isInf y then quietNaN .div x y else pack (fSign x != fSign y) infMag
  else if isInf y then pack (fSign x != fSign y) 0
  else if isZero y then if isZero x then quietNaN .div x y else pack (fSign x != fSign y) infMag
  else pack (fSign x != fSign y) (roundMag (unitsOfMag (fMag x) * 2 ^ 1074) (unitsOfMag (fMag y)))

/-- `i2f(n)`: an integer to binary64, exact for every 32-bit integer (R12). -/
def i2f (n : Int) : F64 := pack (decide (n < 0)) (roundMag (n.natAbs * 2 ^ 1074) 1)

/-- `F(1.0)` (R12). -/
def fOne : F64 := 0x3FF0000000000000#64

/-- `F(0.0)`, positive zero (R12). -/
def fZero : F64 := 0x0000000000000000#64

/-- The place of a value that is not a NaN on the line of values; both zeros are at 0. -/
def fKey (x : F64) : Int := if fSign x then -(fMag x : Int) else fMag x

/-- `fge(a, b)`: neither is a NaN and a is greater than or equal to b (R12). -/
def fge (x y : F64) : Bool := !isNaN x && !isNaN y && decide (fKey y ≤ fKey x)

end Sys2Proof.Machine
end

