-- ==== Sys2Proof/Syntax.lean ====
section
/-! DEFINITION. The six commands (30_encoding.md R60, R62, R63), one constructor per row of spec/opcode_table.json. -/

namespace Sys2Proof

/-- The command set. Operands the spec types as signed 32-bit integers are integers here (their range is checked by
`WellFormed`); `out_base` is a word index, added to modulo 2^32; flags are single bits (R63). -/
inductive Instr where
  /-- `INIT block_size` (R80). -/
  | init (blockSize : Int)
  /-- `TEARDOWN` (R81). -/
  | teardown
  /-- `SET_TX active` (R90). -/
  | setTx (active : Bool)
  /-- `REG_PROV en, freq, vol` (R82). -/
  | regProv (en freq vol : Bool)
  /-- `GENERATE` with the buffer reference `V`, `out_base` (R41), `frame_count` and `sample_rate` (R100). With `V` = 0 the
  field `A` of the word is kept as `outBase` and no rule reads it (R62, R70). -/
  | generate (v : Bool) (outBase : WordIndex) (frameCount sampleRate : Int)
  /-- `IS_ACTIVE` (R130). -/
  | isActive
  deriving DecidableEq, Repr

end Sys2Proof
end

