-- ==== Sys2Proof/Machine/State.lean ====
section
/-! DEFINITION. The state of the machine (10_state.md R20, R34, R35, R39, R40): the spec's record `S`, the provider ports, the output
space, and the model's own fields (what the host does next, the trace of port actions, the parameter `ALLOC_OK`). -/

namespace Sys2Proof.Machine

/-- The envelope state (R23). All four values are legal. -/
inductive EnvelopeState where
  /-- Silent, envelope 0 (code 0). -/
  | idle
  /-- Ramping 0 to 1 (code 1). -/
  | fadeIn
  /-- Envelope 1 (code 2). -/
  | sustain
  /-- Ramping 1 to 0, then Idle (code 3). -/
  | fadeOut
  deriving DecidableEq, Repr

/-- The architectural state `S`: the record of R20. `fade_length` is hard-wired (R29) and has no storage: see
`Regs.fadeLength`. -/
structure Regs where
  /-- `phase`: oscillator phase in radians, binary64 (R21). -/
  phase : F64
  /-- `transmit_active`: the edge detector's memory (R22). -/
  transmitActive : Bool
  /-- `envelope_state` (R23). -/
  envelopeState : EnvelopeState
  /-- `envelope_counter`: frames since entering FadeIn or FadeOut (R24). -/
  envelopeCounter : Word32
  /-- `init` (R26). -/
  init : Bool
  /-- `prov_en`: `get_enabled` is registered (R27). -/
  provEn : Bool
  /-- `prov_freq`: `get_frequency` is registered (R27). -/
  provFreq : Bool
  /-- `prov_vol`: `get_volume` is registered (R27). -/
  provVol : Bool
  /-- `block_size`: the operand of the last INIT, written and never read (R28). -/
  blockSize : Word32
  deriving DecidableEq, Repr

/-- The three provider ports as the host drives them now (R34). -/
structure Ports where
  /-- `P_EN`, the answer of `get_enabled`. -/
  pEn : Bool
  /-- `P_FREQ`, the answer of `get_frequency`, signed hertz. -/
  pFreq : Word32
  /-- `P_VOL`, the answer of `get_volume`, binary64. -/
  pVol : F64
  deriving DecidableEq, Repr

/-- One sample of a provider port, with the value it gave (R34). -/
inductive PortSample where
  | en (value : Bool)
  | freq (value : Word32)
  | vol (value : F64)
  deriving DecidableEq, Repr

/-- What the block does at its ports (R35): the observables of R170 and the samples. -/
inductive PortAction where
  /-- A provider port is sampled (R34). -/
  | sample (s : PortSample)
  /-- One pulse of `out_we` with this `out_addr` and `out_data` (R40). -/
  | write (addr : WordIndex) (data : F64)
  /-- One pulse of `rsp_valid` with this `rsp_bit` (R69). -/
  | respond (bit : Bool)
  deriving DecidableEq, Repr

/-- What the host does next (R35, R150, R160, R170). -/
inductive HostEvent where
  /-- The host offers a command word and the block accepts it (R163). -/
  | command (word : CmdWord)
  /-- The host drives new values onto the provider ports (R33). -/
  | drive (ports : Ports)
  /-- The host asserts and releases `rst` between commands (R160). -/
  | rst
  /-- The host offers a command word, and asserts `rst` once the command has done its first `done` port actions (R160, R167). -/
  | commandCutByRst (word : CmdWord) (done : Nat)
  /-- The OPEN parameter `ALLOC_OK` takes a value (R9, D20, U7; log 5). -/
  | setAllocOk (ok : Bool)
  deriving DecidableEq, Repr

/-- The bytes of `OUT` the model knows: (byte address, byte), word `w` at byte addresses `8w` to `8w + 7`, little-endian (R45;
log 1). An address not listed reads as no value (log 2). -/
abbrev Memory := List Host.Cell

/-- The canonical form: addresses strictly rising, all inside the 2^35 bytes of the 2^32 words of R40. No entry can equal what
an unlisted address reads as, since that is no value. -/
abbrev Memory.wf (m : Memory) : Prop :=
  m.Pairwise (fun c d => c.1 < d.1) ∧ ∀ c ∈ m, c.1 < 2 ^ 35

/-- The state of the machine. -/
structure State where
  /-- The spec's record `S` (R20). -/
  regs : Regs
  /-- The provider ports (R34). -/
  ports : Ports
  /-- `ALLOC_OK` (R9, D20; log 5). -/
  allocOk : Bool
  /-- `OUT` (R40). -/
  out : Memory
  /-- The model's own: what the host will do, next first (log 3). -/
  pending : List HostEvent
  /-- The model's own: the port actions so far, oldest first (log 10). -/
  trace : List PortAction
  deriving DecidableEq, Repr

/-- Why the machine stops: never. The block raises no exception and no access of it can fault (60_exceptions.md R140, R144;
20_memory.md R46, R50), so no constructor stands here. -/
inductive Fault where
  deriving DecidableEq, Repr

/-- Why the model gives a command no meaning. -/
inductive Refusal where
  /-- Raised by an arm of `exec` whose command has no meaning yet; no arm does. Safe: a run that reaches it proves nothing. -/
  | notModelled (mnemonic : String)
  deriving DecidableEq, Repr

/-- `S` after reset (R38, decision D25). -/
def Regs.reset : Regs where
  phase := 0x0000000000000000#64
  transmitActive := false
  envelopeState := .idle
  envelopeCounter := 0#32
  init := false
  provEn := false
  provFreq := false
  provVol := false
  blockSize := 0#32

/-- What the provider ports carry before the host drives them: DESIGN CHOICE, unsafe (log 4): the spec gives none. -/
def Ports.undriven : Ports where
  pEn := false
  pFreq := 0#32
  pVol := 0x0000000000000000#64

/-- The machine right after reset: `S` as R38 says, nothing of `OUT` known, `ALLOC_OK` at its default (R9), nothing asked yet. -/
def State.reset : State where
  regs := Regs.reset
  ports := Ports.undriven
  allocOk := true
  out := []
  pending := []
  trace := []

end Sys2Proof.Machine
end

