-- ==== Sys2Proof/Machine/Flags.lean ====
section
/-! DEFINITION. The one-bit fields that steer behaviour (10_state.md R30) and the conditions computed from them. There are no
arithmetic flags and no floating-point flags. -/

namespace Sys2Proof.Machine

/-- `fade_length`, hard-wired to `FADE_LEN` (10_state.md R29): no command writes it. -/
def Regs.fadeLength (_ : Regs) : Nat := Config.fadeLen

/-- The first guard of GENERATE holds: null buffer or not initialised (42_generate.md R101). -/
def noOpGuard (v : Bool) (r : Regs) : Bool := !v || !r.init

/-- The second guard of GENERATE holds: the frequency or the volume provider is missing (R102). `prov_en` does not matter. -/
def silenceGuard (r : Regs) : Bool := !r.provFreq || !r.provVol

/-- The fade is over: the counter has reached `fade_length` (R107, R108). The exact incremented count is compared, so the step
leaves the fade from any counter value (decision D27, U14; log 8). -/
def fadeDone (r : Regs) : Bool := decide (r.fadeLength ≤ r.envelopeCounter.toNat + 1)

/-- The answer of the enabled provider, 0 when it is not registered (43_activity_query.md R130, R132). -/
def enabledAnswer (r : Regs) (p : Ports) : Bool := r.provEn && p.pEn

/-- `SET_TX` sees an edge: the operand differs from `transmit_active` (41_transmit_edge.md R90). -/
def isEdge (active : Bool) (r : Regs) : Bool := active != r.transmitActive

end Sys2Proof.Machine
end

