-- ==== Sys2Proof/Machine/Ops.lean ====
section
/-! DEFINITION. The operations every command shares: reading and writing `OUT`, performing port actions, committing the effect of a
command, and taking `rst` (the one thing that interrupts a command; the block has no exception to take, 60_exceptions.md R140, R144,
and none to return from, R145). -/

namespace Sys2Proof.Machine

/-- The byte at a byte address of `OUT`, no value where nothing is known (log 2). Only the host reads: the block never does
(20_memory.md R44). -/
def Memory.read (m : Memory) (addr : Nat) : Option Byte := m.lookup addr

/-- The eight bytes of a word from byte address `8 * w`, least significant byte lowest (R45). -/
def wordCells (w : WordIndex) (v : F64) : List Host.Cell :=
  (List.range 8).map fun j => (8 * w.toNat + j, v.extractLsb' (8 * j) 8)

/-- `MemWrite(w, 8, v)`: word `w` of `OUT` takes the 64 bits `v` (R16, R40). -/
def Memory.writeWord (m : Memory) (w : WordIndex) (v : F64) : Memory :=
  m.filter (fun c => decide (c.1 < 8 * w.toNat)) ++ wordCells w v
    ++ m.filter (fun c => decide (8 * w.toNat + 8 ≤ c.1))

/-- The word `w` of `OUT`, where all its bytes are known (R45). -/
def Memory.readWord (m : Memory) (w : WordIndex) : Option F64 := do
  let b0 ← Memory.read m (8 * w.toNat)
  let b1 ← Memory.read m (8 * w.toNat + 1)
  let b2 ← Memory.read m (8 * w.toNat + 2)
  let b3 ← Memory.read m (8 * w.toNat + 3)
  let b4 ← Memory.read m (8 * w.toNat + 4)
  let b5 ← Memory.read m (8 * w.toNat + 5)
  let b6 ← Memory.read m (8 * w.toNat + 6)
  let b7 ← Memory.read m (8 * w.toNat + 7)
  pure (b7 ++ b6 ++ b5 ++ b4 ++ b3 ++ b2 ++ b1 ++ b0)

/-- What one port action does to `OUT`: only a write does anything (R40). -/
def Memory.act (m : Memory) : PortAction → Memory
  | .sample _ => m
  | .write addr data => Memory.writeWord m addr data
  | .respond _ => m

/-- `OUT` after a sequence of port actions, in order (R51). -/
def Memory.actAll (m : Memory) (actions : List PortAction) : Memory := actions.foldl Memory.act m

/-- The output writes of a sequence of port actions, in order (R170). -/
def writesOf (actions : List PortAction) : List (WordIndex × F64) :=
  actions.filterMap fun
    | .write addr data => some (addr, data)
    | .sample _ => none
    | .respond _ => none

/-- The responses of a sequence of port actions, in order (R170). -/
def responsesOf (actions : List PortAction) : List Bool :=
  actions.filterMap fun
    | .respond bit => some bit
    | .sample _ => none
    | .write _ _ => none

/-- The samples of the provider ports in a sequence of port actions, in order (R34). -/
def samplesOf (actions : List PortAction) : List PortSample :=
  actions.filterMap fun
    | .sample s => some s
    | .write _ _ => none
    | .respond _ => none

/-- What one command does: the record `S` it leaves and its port actions in order. -/
structure Effect where
  regs : Regs
  actions : List PortAction
  deriving DecidableEq, Repr

/-- The block performs port actions: `OUT` takes the writes and the trace grows (R35, R40, R170). -/
def State.perform (s : State) (actions : List PortAction) : State :=
  { s with out := Memory.actAll s.out actions, trace := s.trace ++ actions }

/-- A command takes its whole effect as one atomic transition (00_scope.md R8, 70_reset_and_hazards.md R163). -/
def State.commit (s : State) (e : Effect) : State :=
  { s.perform e.actions with regs := e.regs }

/-- `rst`: every field of `S` takes its reset value; `OUT` stays as it is; the host's wires, its future and the record of what it
saw are not the block's (R160; log 9). -/
def State.assertRst (s : State) : State := { s with regs := Regs.reset }

/-- `rst` while a command is executing: the port actions already done stay done, the rest never happen, and the command's new `S`
is lost to the reset (R160, R167; log 9). -/
def State.cutByRst (s : State) (e : Effect) (done : Nat) : State :=
  (s.perform (e.actions.take done)).assertRst

end Sys2Proof.Machine
end

