-- ==== Sys2Proof/Machine/ActivityQuery.lean ====
section
/-! DEFINITION. IS_ACTIVE, the activity query (43_activity_query.md R130 to R132). It changes no field of `S`. -/

namespace Sys2Proof.Machine

/-- The effect of `IS_ACTIVE` (R130): `P_EN` is sampled once when the provider is registered, then one bit is answered. -/
def isActiveEffect (p : Ports) (r : Regs) : Effect where
  regs := r
  actions :=
    (if r.provEn then [.sample (.en p.pEn)] else []) ++ [.respond (r.transmitActive && enabledAnswer r p)]

/-- `IS_ACTIVE` (R130). -/
def execIsActive (s : State) : Host.Outcome State Fault Refusal :=
  .next (s.commit (isActiveEffect s.ports s.regs))

end Sys2Proof.Machine
end

