-- ==== Sys2Proof/WellFormed.lean ====
section
/-! DEFINITION. Which terms of `Instr` are commands: every signed operand fits its 32-bit field (30_encoding.md R63). -/

namespace Sys2Proof

/-- The range of a 32-bit two's complement operand (R63). -/
abbrev InS32 (n : Int) : Prop := -2 ^ 31 ≤ n ∧ n < 2 ^ 31

/-- Every operand is in the range its field can hold (R63). -/
def Instr.wellFormed : Instr → Bool
  | .init blockSize => decide (InS32 blockSize)
  | .teardown => true
  | .setTx _ => true
  | .regProv _ _ _ => true
  | .generate _ _ frameCount sampleRate => decide (InS32 frameCount) && decide (InS32 sampleRate)
  | .isActive => true

/-- `Instr.wellFormed` as a proposition. -/
abbrev WellFormed (i : Instr) : Prop := i.wellFormed = true

end Sys2Proof
end

