-- ==== Sys2Proof/Decode.lean ====
section
/-! DEFINITION. The command word: its fields (30_encoding.md R61, R62), the decoder by match and mask (R64, R70), the reserved
words by name (R65), and the encoder, written from the field table of R62. -/

namespace Sys2Proof

/-- `bits[127:120]`, the opcode (R61). -/
def CmdWord.opc (w : CmdWord) : BitVec 8 := w.extractLsb' 120 8

/-- `bits[119:100]`, reserved, must be zero (R61). -/
def CmdWord.rsv (w : CmdWord) : BitVec 20 := w.extractLsb' 100 20

/-- `bits[99:96]`, the flag operands (R61). -/
def CmdWord.flg (w : CmdWord) : BitVec 4 := w.extractLsb' 96 4

/-- `bits[95:64]`, the first 32-bit operand (R61). -/
def CmdWord.a (w : CmdWord) : Word32 := w.extractLsb' 64 32

/-- `bits[63:32]`, the second 32-bit operand (R61). -/
def CmdWord.b (w : CmdWord) : Word32 := w.extractLsb' 32 32

/-- `bits[31:0]`, the third 32-bit operand (R61). -/
def CmdWord.c (w : CmdWord) : Word32 := w.extractLsb' 0 32

/-- `0x{OPC,RSV,FLG}_{A}_{B}_{C}` (R61). -/
def packCW (opc : BitVec 8) (flg : BitVec 4) (a b c : Word32) : CmdWord :=
  opc ++ 0#20 ++ flg ++ a ++ b ++ c

/-- `s32(v)`: a 32-bit field read as a two's complement signed integer (R15, R63). -/
def s32 (v : Word32) : Int := v.toInt

/-- The 32-bit field that holds a signed integer (R63). -/
def field32 (n : Int) : Word32 := BitVec.ofInt 32 n

/-- One row of the opcode map: a word `w` is the command iff `(w AND mask) = match` (R64). -/
structure OpcodeRow where
  pattern : CmdWord
  mask : CmdWord
  deriving DecidableEq, Repr

/-- `(w AND mask) = match` (R64). -/
def OpcodeRow.hits (r : OpcodeRow) (w : CmdWord) : Bool := (w &&& r.mask) == r.pattern

/-- The row of `INIT` (R64). -/
def rowInit : OpcodeRow :=
  ⟨0x01000000000000000000000000000000#128, 0xFFFFFFFF00000000FFFFFFFFFFFFFFFF#128⟩

/-- The row of `TEARDOWN` (R64). -/
def rowTeardown : OpcodeRow :=
  ⟨0x02000000000000000000000000000000#128, 0xFFFFFFFFFFFFFFFFFFFFFFFFFFFFFFFF#128⟩

/-- The row of `SET_TX` (R64). -/
def rowSetTx : OpcodeRow :=
  ⟨0x03000000000000000000000000000000#128, 0xFFFFFFFEFFFFFFFFFFFFFFFFFFFFFFFF#128⟩

/-- The row of `REG_PROV` (R64). -/
def rowRegProv : OpcodeRow :=
  ⟨0x04000000000000000000000000000000#128, 0xFFFFFFF8FFFFFFFFFFFFFFFFFFFFFFFF#128⟩

/-- The row of `GENERATE` (R64). -/
def rowGenerate : OpcodeRow :=
  ⟨0x05000000000000000000000000000000#128, 0xFFFFFFFE000000000000000000000000#128⟩

/-- The row of `IS_ACTIVE` (R64). -/
def rowIsActive : OpcodeRow :=
  ⟨0x06000000000000000000000000000000#128, 0xFFFFFFFFFFFFFFFFFFFFFFFFFFFFFFFF#128⟩

/-- The opcode map, in the order of R64. -/
def opcodeRows : List OpcodeRow :=
  [rowInit, rowTeardown, rowSetTx, rowRegProv, rowGenerate, rowIsActive]

/-- Why a word is a reserved encoding (R65). All four are the one `RESERVED` of R70: the names are for the reader. -/
inductive Reserved where
  /-- `OPC` is 0x00 or 0x07 to 0xFF. -/
  | opcode
  /-- `RSV` is not zero. -/
  | reservedField
  /-- A must-be-zero bit of `FLG` is set. -/
  | flagBits
  /-- A must-be-zero field `A`, `B` or `C` is not zero. -/
  | operandField
  deriving DecidableEq, Repr

/-- The bits of `FLG` the command with this opcode uses (R62). -/
def usedFlags (opc : BitVec 8) : BitVec 4 :=
  if opc = 0x03#8 ∨ opc = 0x05#8 then 0b0001#4 else if opc = 0x04#8 then 0b0111#4 else 0b0000#4

/-- The name under which a word that hits no row is rejected (R65). -/
def reservedReason (w : CmdWord) : Reserved :=
  if w.opc = 0#8 ∨ 7#8 ≤ w.opc then .opcode
  else if w.rsv ≠ 0 then .reservedField
  else if w.flg &&& ~~~(usedFlags w.opc) ≠ 0 then .flagBits
  else .operandField

/-- `decode(w)`, total on all 2^128 words (R70). -/
def decode (w : CmdWord) : Except Reserved Instr :=
  if rowInit.hits w then .ok (.init (s32 w.a))
  else if rowTeardown.hits w then .ok .teardown
  else if rowSetTx.hits w then .ok (.setTx (w.getLsbD 96))
  else if rowRegProv.hits w then .ok (.regProv (w.getLsbD 96) (w.getLsbD 97) (w.getLsbD 98))
  else if rowGenerate.hits w then .ok (.generate (w.getLsbD 96) w.a (s32 w.b) (s32 w.c))
  else if rowIsActive.hits w then .ok .isActive
  else .error (reservedReason w)

/-- `FLG` with these bits 3 to 0 (R62). -/
def flagField (f3 f2 f1 f0 : Bool) : BitVec 4 :=
  BitVec.ofBool f3 ++ BitVec.ofBool f2 ++ BitVec.ofBool f1 ++ BitVec.ofBool f0

/-- The command word of an instruction, field by field from the table of R62. -/
def encode : Instr → CmdWord
  | .init blockSize => packCW 0x01#8 (flagField false false false false) (field32 blockSize) 0#32 0#32
  | .teardown => packCW 0x02#8 (flagField false false false false) 0#32 0#32 0#32
  | .setTx active => packCW 0x03#8 (flagField false false false active) 0#32 0#32 0#32
  | .regProv en freq vol => packCW 0x04#8 (flagField false vol freq en) 0#32 0#32 0#32
  | .generate v outBase frameCount sampleRate =>
    packCW 0x05#8 (flagField false false false v) outBase (field32 frameCount) (field32 sampleRate)
  | .isActive => packCW 0x06#8 (flagField false false false false) 0#32 0#32 0#32

/-- The command word whose low `nbits` bits are `w`, every bit above them 0. The opcode table numbers bits as R15 does. -/
def wordOfTable (nbits w : Nat) : CmdWord := BitVec.ofNat 128 (w % 2 ^ nbits)

/-- The instruction the decoder reads from a word numbered as spec/opcode_table.json numbers it. -/
def decodeTableWord (nbits w : Nat) : Option Instr :=
  match decode (wordOfTable nbits w) with
  | .ok i => some i
  | .error _ => none

end Sys2Proof
end

