-- ==== Sys2Proof/Machine/Operands.lean ====
section
/-! DEFINITION. Operand forms: the codes of the envelope states, the frame count, the word index of a sample, the integers read from
ports and fields. -/

namespace Sys2Proof.Machine

/-- The 2-bit code of an envelope state (10_state.md R23). -/
def EnvelopeState.code : EnvelopeState → BitVec 2
  | .idle => 0#2
  | .fadeIn => 1#2
  | .sustain => 2#2
  | .fadeOut => 3#2

/-- The envelope state with this code: all four codes are legal (R23). -/
def EnvelopeState.ofCode (c : BitVec 2) : EnvelopeState :=
  if c = 0#2 then .idle else if c = 1#2 then .fadeIn else if c = 2#2 then .sustain else .fadeOut

/-- The number of frames: `frame_count` when it is positive and 0 otherwise (42_generate.md R104). -/
def frameTurns (frameCount : Int) : Nat := frameCount.toNat

/-- `(out_base + 2*i + c) mod 2^32`, for the offset `2*i + c` of a sample (20_memory.md R43). -/
def sampleIndex (outBase : WordIndex) (offset : Nat) : WordIndex := outBase + BitVec.ofNat 32 offset

/-- `s32(Sample(P_FREQ))` (R103). -/
def sampledFreq (p : Ports) : Int := s32 p.pFreq

/-- The value an increment of `envelope_counter` stores (R24, R107, R108; a sum beyond 32 bits: log 8). -/
def nextCounter (c : Word32) : Word32 :=
  if c.toNat + 1 < 2 ^ 32 then c + 1#32 else Config.counterOverflow

end Sys2Proof.Machine
end

