-- ==== Sys2Proof/Machine/SinUnit.lean ====
section
/-! DEFINITION. The named properties a sine unit may have (00_scope.md R13). The model assumes none of them of `Config.sin`; a claim
that needs one says so by name. `SIN_PURE` (the result depends on the operand's bits alone) is what being a function says. -/

namespace Sys2Proof.Machine

/-- The real number a finite binary64 value stands for. -/
noncomputable def realOf (x : F64) : ℝ := (units x : ℝ) / 2 ^ 1074

/-- `SIN_ZERO`: positive zero in, positive zero out. -/
def SinZero (f : F64 → F64) : Prop := f fZero = fZero

/-- `SIN_BOUND`: for every finite x, `SIN(x)` is finite and its magnitude is at most 1. -/
def SinBound (f : F64 → F64) : Prop :=
  ∀ x, isFinite x = true → isFinite (f x) = true ∧ fMag (f x) ≤ fMag fOne

/-- `SIN_NONFINITE`: for x an infinity or a NaN, `SIN(x)` is a NaN. -/
def SinNonfinite (f : F64 → F64) : Prop := ∀ x, isFinite x = false → isNaN (f x) = true

/-- `SIN_ERR` with the bound `SIN_EPS`: for every finite x with 0 <= x < 2π, `SIN(x)` is within the bound of sin(x). -/
def SinErr (f : F64 → F64) (eps : Rat) : Prop :=
  ∀ x, isFinite x = true → 0 ≤ realOf x → realOf x < 2 * Real.pi → |realOf (f x) - Real.sin (realOf x)| ≤ (eps : ℝ)

end Sys2Proof.Machine
end

