-- ==== Sys2Proof/Machine/Generate.lean ====
section
/-! DEFINITION. GENERATE (42_generate.md R100 to R118): guards, sampling, phase increment, and per frame the envelope step, the sample
and the phase step. The sine unit is an argument `sin` throughout, so that a claim can speak of any sine unit; `execGenerate` uses
the open `Config.sin`. -/

namespace Sys2Proof.Machine

/-- The phase increment `delta = fdiv(fmul(TWO_PI, i2f(freq)), i2f(sample_rate))` (R105). -/
def phaseIncrement (freq sampleRate : Int) : F64 :=
  fdiv (fmul Config.twoPi (i2f freq)) (i2f sampleRate)

/-- `fdiv(i2f(envelope_counter), i2f(FADE_LEN))` (R107, R108). -/
def rampFraction (r : Regs) : F64 :=
  fdiv (i2f (r.envelopeCounter.toNat : Int)) (i2f (r.fadeLength : Int))

/-- The frame's envelope value `env` (R107, R108, R109): the last frame of a fade-out is forced to exactly 0 (C1). -/
def envelopeValue (r : Regs) : F64 :=
  match r.envelopeState with
  | .fadeIn => rampFraction r
  | .fadeOut => if fadeDone r then fZero else fsub fOne (rampFraction r)
  | .sustain => fOne
  | .idle => fZero

/-- What `EnvelopeStep()` leaves in `S` (R107, R108, R109): the counter counts in the fades only, and is not reset when a fade
ends (R24, C4). -/
def envelopeNext (r : Regs) : Regs :=
  match r.envelopeState with
  | .fadeIn =>
    { r with
      envelopeCounter := nextCounter r.envelopeCounter
      envelopeState := if fadeDone r then .sustain else .fadeIn }
  | .fadeOut =>
    { r with
      envelopeCounter := nextCounter r.envelopeCounter
      envelopeState := if fadeDone r then .idle else .fadeOut }
  | .sustain => r
  | .idle => r

/-- `PhaseStep(delta)` on the phase: one sum, one comparison, at most one subtraction (R111). -/
def phaseStep (delta phase : F64) : F64 :=
  let p := fadd phase delta
  if fge p Config.twoPi then fsub p Config.twoPi else p

/-- The sample of a frame: `fmul(fmul(SIN(phase), vol), env)`, from the phase before this frame's advance (R110, R113). -/
def frameSample (sin : F64 → F64) (vol : F64) (r : Regs) : F64 :=
  fmul (fmul (sin r.phase) vol) (envelopeValue r)

/-- What one frame leaves in `S`: the envelope step, then the phase step, in every envelope state (R113, R114). -/
def frameNext (delta : F64) (r : Regs) : Regs :=
  { envelopeNext r with phase := phaseStep delta r.phase }

/-- The two words of frame `i`, left first, the same 64 bits (R42, R43, R112). -/
def framePair (outBase : WordIndex) (i : Nat) (x : F64) : List PortAction :=
  [.write (sampleIndex outBase (2 * i)) x, .write (sampleIndex outBase (2 * i + 1)) x]

/-- Frames `i`, `i + 1`, … of the generation loop, `turns` of them (R100, R113). -/
def toneFrames (sin : F64 → F64) (delta vol : F64) (outBase : WordIndex) : (turns i : Nat) → Regs → Effect
  | 0, _, r => { regs := r, actions := [] }
  | turns + 1, i, r =>
    let rest := toneFrames sin delta vol outBase turns (i + 1) (frameNext delta r)
    { regs := rest.regs, actions := framePair outBase i (frameSample sin vol r) ++ rest.actions }

/-- Frames `i`, `i + 1`, … of the silence loop, `turns` of them: positive zero in both words (R102). -/
def silentFrames (outBase : WordIndex) : (turns i : Nat) → List PortAction
  | 0, _ => []
  | turns + 1, i => framePair outBase i fZero ++ silentFrames outBase turns (i + 1)

/-- The effect of `GENERATE` with the sine unit `sin` (R100). -/
def generateEffect (sin : F64 → F64) (v : Bool) (outBase : WordIndex) (frameCount sampleRate : Int) (p : Ports)
    (r : Regs) : Effect :=
  if noOpGuard v r then { regs := r, actions := [] }
  else if silenceGuard r then { regs := r, actions := silentFrames outBase (frameTurns frameCount) 0 }
  else
    let tone := toneFrames sin (phaseIncrement (sampledFreq p) sampleRate) p.pVol outBase (frameTurns frameCount) 0 r
    { regs := tone.regs, actions := [.sample (.freq p.pFreq), .sample (.vol p.pVol)] ++ tone.actions }

/-- `GENERATE V, out_base, frame_count, sample_rate` (R100). -/
def execGenerate (v : Bool) (outBase : WordIndex) (frameCount sampleRate : Int) (s : State) :
    Host.Outcome State Fault Refusal :=
  .next (s.commit (generateEffect Config.sin v outBase frameCount sampleRate s.ports s.regs))

end Sys2Proof.Machine
end

