-- ==== Sys2Proof/Machine/Lifecycle.lean ====
section
/-! DEFINITION. INIT, TEARDOWN and REG_PROV (40_lifecycle.md R80, R81, R82). None of them writes `OUT`, samples a port or responds. -/

namespace Sys2Proof.Machine

/-- The effect of `INIT block_size` (R80): the four mutable fields zeroed, `block_size` stored, `init` set if the allocation
succeeds; the provider flags are kept (decision D21). -/
def initEffect (allocOk : Bool) (blockSize : Int) (r : Regs) : Effect where
  regs :=
    { r with
      phase := 0x0000000000000000#64
      transmitActive := false
      envelopeState := .idle
      envelopeCounter := 0#32
      blockSize := field32 blockSize
      init := allocOk }
  actions := []

/-- `INIT block_size` (R80). -/
def execInit (blockSize : Int) (s : State) : Host.Outcome State Fault Refusal :=
  .next (s.commit (initEffect s.allocOk blockSize s.regs))

/-- The effect of `TEARDOWN` (R81): every field of `S` but the constant `fade_length` is cleared. -/
def teardownEffect (_ : Regs) : Effect where
  regs :=
    { phase := 0x0000000000000000#64
      transmitActive := false
      envelopeState := .idle
      envelopeCounter := 0#32
      blockSize := 0#32
      init := false
      provEn := false
      provFreq := false
      provVol := false }
  actions := []

/-- `TEARDOWN` (R81). -/
def execTeardown (s : State) : Host.Outcome State Fault Refusal :=
  .next (s.commit (teardownEffect s.regs))

/-- The effect of `REG_PROV en, freq, vol` (R82): all three flags are replaced (decision D13). -/
def regProvEffect (en freq vol : Bool) (r : Regs) : Effect where
  regs := { r with provEn := en, provFreq := freq, provVol := vol }
  actions := []

/-- `REG_PROV en, freq, vol` (R82). -/
def execRegProv (en freq vol : Bool) (s : State) : Host.Outcome State Fault Refusal :=
  .next (s.commit (regProvEffect en freq vol s.regs))

end Sys2Proof.Machine
end

