-- ==== Sys2Proof/Machine/TransmitEdge.lean ====
section
/-! DEFINITION. SET_TX, the transmit-edge command (41_transmit_edge.md R90 to R96). It does not look at `envelope_state`, `init` or the
provider flags (R90, R94). -/

namespace Sys2Proof.Machine

/-- The rising edge (R91): the phase restarts at 0 and the fade-in at counter 0. -/
def risingEdge (r : Regs) : Regs :=
  { r with phase := fZero, envelopeState := .fadeIn, envelopeCounter := 0#32, transmitActive := true }

/-- The falling edge (R92): a fresh fade-out at counter 0, the phase kept (90_conflicts.md C2). -/
def fallingEdge (r : Regs) : Regs :=
  { r with envelopeState := .fadeOut, envelopeCounter := 0#32, transmitActive := false }

/-- The effect of `SET_TX active` (R90): nothing unless `active` differs from `transmit_active` (R93). -/
def setTxEffect (active : Bool) (r : Regs) : Effect where
  regs := if isEdge active r then if active then risingEdge r else fallingEdge r else r
  actions := []

/-- `SET_TX active` (R90). -/
def execSetTx (active : Bool) (s : State) : Host.Outcome State Fault Refusal :=
  .next (s.commit (setTxEffect active s.regs))

end Sys2Proof.Machine
end

