-- ==== Sys2Proof/Machine/Dispatch.lean ====
section
/-! DEFINITION. One arm per command (30_encoding.md R60). -/

namespace Sys2Proof.Machine

def exec (i : Instr) (s : State) : Host.Outcome State Fault Refusal :=
  match i with
  | .init blockSize => Sys2Proof.Machine.execInit blockSize s
  | .teardown => Sys2Proof.Machine.execTeardown s
  | .setTx active => Sys2Proof.Machine.execSetTx active s
  | .regProv en freq vol => Sys2Proof.Machine.execRegProv en freq vol s
  | .generate v outBase frameCount sampleRate => Sys2Proof.Machine.execGenerate v outBase frameCount sampleRate s
  | .isActive => Sys2Proof.Machine.execIsActive s

end Sys2Proof.Machine
end

