-- ==== Sys2Proof/Machine/Events.lean ====
section
/-! DEFINITION. What the block does with each thing the host does (10_state.md R35; 70_reset_and_hazards.md R160, R163). -/

namespace Sys2Proof.Machine

/-- The effect of a command in this state, before it is committed: what `rst` can cut short (R160). -/
def effectOf (i : Instr) (s : State) : Effect :=
  match i with
  | .init blockSize => initEffect s.allocOk blockSize s.regs
  | .teardown => teardownEffect s.regs
  | .setTx active => setTxEffect active s.regs
  | .regProv en freq vol => regProvEffect en freq vol s.regs
  | .generate v outBase frameCount sampleRate =>
    generateEffect Config.sin v outBase frameCount sampleRate s.ports s.regs
  | .isActive => isActiveEffect s.ports s.regs

/-- A command word is accepted: the command it decodes to executes; a reserved word is ignored (30_encoding.md R65). -/
def acceptWord (w : CmdWord) (s : State) : Host.Outcome State Fault Refusal :=
  match decode w with
  | .ok i => exec i s
  | .error _ => .next s

/-- A command word is accepted and `rst` cuts it after `done` port actions (R160; log 9). -/
def acceptWordCut (w : CmdWord) (done : Nat) (s : State) : State :=
  match decode w with
  | .ok i => s.cutByRst (effectOf i s) done
  | .error _ => s.assertRst

/-- One host event. -/
def runEvent (e : HostEvent) (s : State) : Host.Outcome State Fault Refusal :=
  match e with
  | .command word => acceptWord word s
  | .drive ports => .next { s with ports := ports }
  | .rst => .next s.assertRst
  | .commandCutByRst word done => .next (acceptWordCut word done s)
  | .setAllocOk ok => .next { s with allocOk := ok }

end Sys2Proof.Machine
end

