-- ==== Sys2Proof/Machine/Step.lean ====
section
/-! DEFINITION. One step: the next host event, if there is one. The block has no program counter (10_state.md R25): the host sequences
the commands, so the next instruction is the next command word the host offers. -/

namespace Sys2Proof.Machine

/-- One step of the machine. With nothing offered the block is idle and holds its state (60_exceptions.md R152; log 3). -/
def step (s : State) : Host.Outcome State Fault Refusal :=
  match s.pending with
  | [] => .next s
  | e :: rest => runEvent e { s with pending := rest }

/-- `s` with this command word offered next (log 14). -/
def State.withFetchWord (s : State) (nbits w : Nat) : State :=
  { s with pending := .command (wordOfTable nbits w) :: s.pending }

end Sys2Proof.Machine
end

