-- ==== Sys2Proof/Safety.lean ====
section
/-! DEFINITION. What counts as a good state and a safe step, in the terms the claims use. -/

namespace Sys2Proof.Machine

/-- The invariant of reachable states (10_state.md R37 a, b, c). -/
structure Regs.Inv (r : Regs) : Prop where
  /-- (a) In a fade the counter is below `FADE_LEN`. -/
  fading : r.envelopeState = .fadeIn ∨ r.envelopeState = .fadeOut → r.envelopeCounter.toNat ≤ Config.fadeLen - 1
  /-- (b) Outside the fades the counter is 0 or `FADE_LEN`. -/
  resting : r.envelopeState = .sustain ∨ r.envelopeState = .idle →
    r.envelopeCounter.toNat = 0 ∨ r.envelopeCounter.toNat = Config.fadeLen
  /-- (c) FadeIn and Sustain have `transmit_active` = 1. -/
  keyed : r.envelopeState = .fadeIn ∨ r.envelopeState = .sustain → r.transmitActive = true
  /-- (c) FadeOut and Idle have `transmit_active` = 0. -/
  unkeyed : r.envelopeState = .fadeOut ∨ r.envelopeState = .idle → r.transmitActive = false

/-- A phase in `[0, TWO_PI)` (10_state.md R21, 42_generate.md R117): not a NaN, at least 0, below `TWO_PI`. -/
def PhaseInRange (x : F64) : Prop := fge x fZero = true ∧ isNaN x = false ∧ fge x Config.twoPi = false

/-- `r` is the exact result `num / den` (in units of 2^-1074, `den` not zero) rounded once with roundTiesToEven, its sign apart
(00_scope.md R11). -/
structure RoundsTo (r : F64) (num den : Int) : Prop where
  /-- The result is a number. -/
  number : isNaN r = false
  /-- Overflow gives an infinity, from half a unit in the last place above the largest finite value on: 2^1024 - 2^970. -/
  overflow : isInf r = true ↔ (2 ^ 54 - 1) * 2 ^ 2044 * |den| ≤ |num|
  /-- A finite result is at least as near to the exact one as any finite value. -/
  nearest : isFinite r = true → ∀ z : F64, isFinite z = true → |units r * den - num| ≤ |units z * den - num|
  /-- Of two equally near values the result is the even one. -/
  even : isFinite r = true → ∀ z : F64, isFinite z = true → |units r * den - num| = |units z * den - num| →
    units z ≠ units r → fMag r % 2 = 0

/-- A step completes: the machine goes on (60_exceptions.md R140, R144). -/
def StepCompletes (s : State) : Prop := ∃ t, step s = .next t

/-- States a finite run of steps leads to (70_reset_and_hazards.md R161, R170). -/
inductive ReachableFrom (s : State) : State → Prop where
  | refl : ReachableFrom s s
  | next {t u : State} : ReachableFrom s t → step t = .next u → ReachableFrom s u

end Sys2Proof.Machine
end

