-- ==== Sys2Proof/Certificates/Slice0/Obligations.lean ====
section
/-! DEFINITION. The statements for the provers, from the numbered rules of spec/. -/

open Sys2Proof Sys2Proof.Machine

/-! ### Encoding and decoding (30_encoding.md) -/

/-- Decoding an encoded well-formed instruction gives it back, every operand at every value its field admits. -/
def Obligations.DecodeOfEncode : Prop := ∀ i : Instr, WellFormed i → decode (encode i) = .ok i

/-- A word that decodes to an instruction is that instruction's encoding, bit for bit, and the instruction is well-formed. -/
def Obligations.EncodeOfDecode : Prop := ∀ (w : CmdWord) (i : Instr), decode w = .ok i → encode i = w ∧ WellFormed i

/-- At most one row of the opcode map hits any word. -/
def Obligations.OpcodeRowsDisjoint : Prop :=
  ∀ w : CmdWord, ∀ r ∈ opcodeRows, ∀ q ∈ opcodeRows, r.hits w = true → q.hits w = true → r = q

/-- R65: a word is reserved exactly when its `OPC` is 0x00 or 0x07 to 0xFF, or its `RSV` is not zero, or a must-be-zero flag bit is
set, or a must-be-zero operand field is not zero; and a step that accepts a reserved word leaves everything but the host's list as
it was: `S`, `OUT`, the port actions (so no response). -/
def Obligations.ReservedWordsIgnored : Prop :=
  (∀ w : CmdWord, (∃ e, decode w = .error e) ↔
    (w.opc = 0x00#8 ∨ 0x07#8 ≤ w.opc) ∨ w.rsv ≠ 0#20 ∨
    ((w.opc = 0x01#8 ∨ w.opc = 0x02#8 ∨ w.opc = 0x06#8) ∧ w.flg ≠ 0#4) ∨
    ((w.opc = 0x03#8 ∨ w.opc = 0x05#8) ∧ w.flg.extractLsb' 1 3 ≠ 0#3) ∨
    (w.opc = 0x04#8 ∧ w.flg.getLsbD 3 = true) ∨
    (w.opc = 0x01#8 ∧ (w.b ≠ 0#32 ∨ w.c ≠ 0#32)) ∨
    ((w.opc = 0x02#8 ∨ w.opc = 0x03#8 ∨ w.opc = 0x04#8 ∨ w.opc = 0x06#8) ∧
      (w.a ≠ 0#32 ∨ w.b ≠ 0#32 ∨ w.c ≠ 0#32))) ∧
  (∀ (s : State) (w : CmdWord) (e : Reserved) (rest : List HostEvent),
    s.pending = .command w :: rest → decode w = .error e → step s = .next { s with pending := rest })

/-- Words written out from the tables of 30_encoding.md and 95_test_vectors.md decode to the commands they stand for. -/
def Obligations.WrittenWordsDecode : Prop :=
  decode 0x01000000000002000000000000000000#128 = .ok (.init 512) ∧
  decode 0x01000000FFFFFFFF0000000000000000#128 = .ok (.init (-1)) ∧
  decode 0x02000000000000000000000000000000#128 = .ok .teardown ∧
  decode 0x03000001000000000000000000000000#128 = .ok (.setTx true) ∧
  decode 0x04000005000000000000000000000000#128 = .ok (.regProv true false true) ∧
  decode 0x0500000100001000000002000000BB80#128 = .ok (.generate true 0x1000#32 512 48000) ∧
  decode 0x06000000000000000000000000000000#128 = .ok .isActive

/-! ### Steps and host events -/

/-- A step that accepts a word which decodes to `i` is `exec i`, once the word is off the host's list. -/
def Obligations.StepRunsDecodedCommand : Prop :=
  ∀ (s : State) (w : CmdWord) (i : Instr) (rest : List HostEvent),
    s.pending = .command w :: rest → decode w = .ok i → step s = exec i { s with pending := rest }

/-- The steps that run no command: idle with nothing offered, the ports driven, `ALLOC_OK` set. The list of host events, the idle step
and the event that sets `ALLOC_OK` are the model's choice (log 3, log 5). -/
def Obligations.StepWithoutCommand : Prop :=
  (∀ s : State, s.pending = [] → step s = .next s) ∧
  (∀ (s : State) (p : Ports) (rest : List HostEvent), s.pending = .drive p :: rest →
    step s = .next { s with pending := rest, ports := p }) ∧
  (∀ (s : State) (ok : Bool) (rest : List HostEvent), s.pending = .setAllocOk ok :: rest →
    step s = .next { s with pending := rest, allocOk := ok })

/-- Every step completes: the block raises no exception, and no command stops. -/
def Obligations.EveryStepCompletes : Prop := ∀ s : State, StepCompletes s

/-- `rst` puts every field of `S` at its reset value and leaves `OUT` as it is. Between commands nothing else changes. Inside a command, of
the port actions the whole command would do, in order, the first `done` happen and no more, and `OUT` is what those leave: words already
written stay written, words not yet written are not. That `rst` can land after any number of port actions is the model's reading
(log 9). -/
def Obligations.RstResult : Prop :=
  (∀ (s : State) (rest : List HostEvent), s.pending = .rst :: rest →
    step s = .next { s with pending := rest, regs := Regs.reset }) ∧
  (∀ (s : State) (w : CmdWord) (i : Instr) (done : Nat) (rest : List HostEvent),
    s.pending = .commandCutByRst w done :: rest → decode w = .ok i →
    ∃ whole t : State, ∃ actions : List PortAction,
      exec i { s with pending := rest } = .next whole ∧ whole.trace = s.trace ++ actions ∧
      step s = .next t ∧ t.regs = Regs.reset ∧ t.trace = s.trace ++ actions.take done ∧
      t.out = Memory.actAll s.out (actions.take done) ∧
      t.pending = rest ∧ t.ports = s.ports ∧ t.allocOk = s.allocOk) ∧
  (∀ (s : State) (w : CmdWord) (e : Reserved) (done : Nat) (rest : List HostEvent),
    s.pending = .commandCutByRst w done :: rest → decode w = .error e →
    step s = .next { s with pending := rest, regs := Regs.reset })

/-- Every step adds port actions at the end of the record, and `OUT` afterwards is `OUT` before with exactly the added output writes done
in order. -/
def Obligations.OutIsReplayOfWrites : Prop :=
  ∀ s t : State, step s = .next t →
    ∃ actions : List PortAction, t.trace = s.trace ++ actions ∧
      t.out = (writesOf actions).foldl (fun m p => Memory.writeWord m p.1 p.2) s.out

/-! ### The output space (20_memory.md) -/

/-- A word written is read back, its byte `j` (least significant first) is at byte address `8 * w + j`, and every byte outside it reads
as before. That the bytes of a word stand there, least significant lowest, is the model's choice (log 1): R45 gives the mapping only for a
platform that maps words onto bytes. -/
def Obligations.WordWriteAndRead : Prop :=
  ∀ (m : Memory) (w : WordIndex) (v : F64),
    Memory.readWord (Memory.writeWord m w v) w = some v ∧
    (∀ j < 8, Memory.read (Memory.writeWord m w v) (8 * w.toNat + j) = some (v.extractLsb' (8 * j) 8)) ∧
    (∀ a : Nat, a < 8 * w.toNat ∨ 8 * w.toNat + 8 ≤ a → Memory.read (Memory.writeWord m w v) a = Memory.read m a)

/-- R43: the word GENERATE writes for frame `i`, channel `c` (the `2i + c`-th of its writes) is `(out_base + 2*i + c) mod 2^32`, the
addition wrapping without a fault; the offsets are at most 2^32 - 3; and no two writes of one GENERATE go to the same word. -/
def Obligations.SampleWordIndices : Prop :=
  ∀ (outBase : WordIndex) (frameCount sampleRate : Int) (s : State),
    WellFormed (.generate true outBase frameCount sampleRate) → s.regs.init = true →
    ∃ t, exec (.generate true outBase frameCount sampleRate) s = .next t ∧
      ∃ actions, t.trace = s.trace ++ actions ∧
        (∀ i < frameTurns frameCount, ∀ c < 2,
          2 * i + c ≤ 2 ^ 32 - 3 ∧
          ((writesOf actions)[2 * i + c]?).map (fun p => p.1.toNat) = some ((outBase.toNat + 2 * i + c) % 2 ^ 32)) ∧
        (writesOf actions).length = 2 * frameTurns frameCount ∧
        ((writesOf actions).map Prod.fst).Nodup

/-- A step keeps the canonical form of `OUT` (the model's own list form, log 1, log 2). -/
def Obligations.StepKeepsOutCanonical : Prop :=
  ∀ s t : State, Memory.wf s.out → step s = .next t → Memory.wf t.out

/-! ### Lifecycle (40_lifecycle.md) -/

/-- R80: `INIT`. Its encoding; what it leaves in every field, in any state; idempotent. -/
def Obligations.InitResult : Prop :=
  ∀ (blockSize : Int) (s : State),
    encode (.init blockSize) = packCW 0x01#8 0#4 (field32 blockSize) 0#32 0#32 ∧
    (InS32 blockSize → s32 (field32 blockSize) = blockSize) ∧
    ∃ t, exec (.init blockSize) s = .next t ∧
      t = { s with
        regs :=
          { s.regs with
            phase := 0x0000000000000000#64, transmitActive := false, envelopeState := .idle,
            envelopeCounter := 0#32, blockSize := field32 blockSize, init := s.allocOk } } ∧
      exec (.init blockSize) t = .next t

/-- R81: `TEARDOWN`. Its encoding; the reset state of `S` from any state, nothing else changed; idempotent; the GENERATE after it is a
no-op. -/
def Obligations.TeardownResult : Prop :=
  encode .teardown = packCW 0x02#8 0#4 0#32 0#32 0#32 ∧
  ∀ s : State, ∃ t, exec .teardown s = .next t ∧ t = { s with regs := State.reset.regs } ∧
    exec .teardown t = .next t ∧
    ∀ (v : Bool) (outBase : WordIndex) (frameCount sampleRate : Int),
      exec (.generate v outBase frameCount sampleRate) t = .next t

/-- R82: `REG_PROV`. Its encoding; all three flags replaced, in any state, nothing else changed (no port sampled, no fade restarted). -/
def Obligations.RegProvResult : Prop :=
  ∀ (en freq vol : Bool) (s : State),
    encode (.regProv en freq vol) = packCW 0x04#8 (flagField false vol freq en) 0#32 0#32 0#32 ∧
    exec (.regProv en freq vol) s =
      .next { s with regs := { s.regs with provEn := en, provFreq := freq, provVol := vol } }

/-- R38: the reset values, and that the port `rst` and TEARDOWN leave the same ones. -/
def Obligations.ResetValues : Prop :=
  State.reset.regs =
    { phase := 0x0000000000000000#64, transmitActive := false, envelopeState := .idle, envelopeCounter := 0#32,
      init := false, provEn := false, provFreq := false, provVol := false, blockSize := 0#32 } ∧
  State.reset.regs.fadeLength = 48 ∧
  (∀ s : State, ∃ t, exec .teardown s = .next t ∧ t.regs = State.reset.regs) ∧
  ∀ (s : State) (rest : List HostEvent), s.pending = .rst :: rest →
    ∃ t, step s = .next t ∧ t.regs = State.reset.regs

/-- R28: `block_size` holds the operand of the last INIT, is 0 after TEARDOWN and reset, is written by no other command, and is read by
none: two states that differ in it alone do the same port actions and leave states that differ in it alone. -/
def Obligations.BlockSizeWrittenNeverRead : Prop :=
  (∀ (n : Int) (s t : State), exec (.init n) s = .next t → t.regs.blockSize = field32 n) ∧
  (∀ s t : State, exec .teardown s = .next t → t.regs.blockSize = 0#32) ∧
  State.reset.regs.blockSize = 0#32 ∧
  (∀ (i : Instr) (s t : State), (∀ n, i ≠ .init n) → i ≠ .teardown → exec i s = .next t →
    t.regs.blockSize = s.regs.blockSize) ∧
  (∀ (i : Instr) (b : Word32) (s t : State), exec i s = .next t →
    ∃ u, exec i { s with regs := { s.regs with blockSize := b } } = .next u ∧
      u.trace = t.trace ∧ u.out = t.out ∧ u.ports = t.ports ∧ u.pending = t.pending ∧ u.allocOk = t.allocOk ∧
      { u.regs with blockSize := 0#32 } = { t.regs with blockSize := 0#32 })

/-! ### The transmit edge (41_transmit_edge.md) -/

/-- R90: `SET_TX`. Its encoding and its whole effect in any state: nothing without an edge, the rising edge, the falling edge. -/
def Obligations.SetTxResult : Prop :=
  ∀ (active : Bool) (s : State),
    encode (.setTx active) = packCW 0x03#8 (flagField false false false active) 0#32 0#32 0#32 ∧
    exec (.setTx active) s =
      .next { s with
        regs :=
          if active = s.regs.transmitActive then s.regs
          else if active = true then
            { s.regs with phase := 0x0000000000000000#64, envelopeState := .fadeIn, envelopeCounter := 0#32,
                          transmitActive := true }
          else { s.regs with envelopeState := .fadeOut, envelopeCounter := 0#32, transmitActive := false } }

/-- The first sample after a rising edge is zero for any finite volume, whatever the state before, for every sine unit with
`SIN_ZERO`. -/
def Obligations.FirstSampleAfterRisingEdgeIsZero : Prop :=
  ∀ (sin : F64 → F64) (vol : F64) (s t : State), SinZero sin → isFinite vol = true →
    s.regs.transmitActive = false → exec (.setTx true) s = .next t → isZero (frameSample sin vol t.regs) = true

/-- The first frame after a falling edge has envelope exactly 1 from every state with `transmit_active` = 1, whatever the fade-in had
reached, and the phase is the phase before the edge (90_conflicts.md C2). -/
def Obligations.FallingEdgeStartsFromFullLevel : Prop :=
  ∀ s t : State, s.regs.transmitActive = true → exec (.setTx false) s = .next t →
    envelopeValue t.regs = 0x3FF0000000000000#64 ∧ t.regs.phase = s.regs.phase

/-- R93: a repeated value changes nothing, and calling twice is calling once. -/
def Obligations.RepeatedSetTxIsNoOp : Prop :=
  (∀ (active : Bool) (s : State), active = s.regs.transmitActive → exec (.setTx active) s = .next s) ∧
  (∀ (active : Bool) (s t : State), exec (.setTx active) s = .next t → exec (.setTx active) t = .next t)

/-- `transmit_active` changes only by SET_TX, INIT and TEARDOWN: every other command, every frame of GENERATE included, keeps it. -/
def Obligations.TransmitActiveChangesOnlyByCall : Prop :=
  ∀ (i : Instr) (s t : State), (∀ n, i ≠ .init n) → i ≠ .teardown → (∀ a, i ≠ .setTx a) → exec i s = .next t →
    t.regs.transmitActive = s.regs.transmitActive

/-! ### The activity query (43_activity_query.md) -/

/-- R130: `IS_ACTIVE`. Its encoding; no field of `S`, no byte of `OUT` changes; `P_EN` is sampled once and only when its provider is
registered; one response bit, `transmit_active AND enabled`. -/
def Obligations.IsActiveResult : Prop :=
  encode .isActive = packCW 0x06#8 0#4 0#32 0#32 0#32 ∧
  ∀ s : State, exec .isActive s =
    .next { s with
      trace := s.trace ++
        if s.regs.provEn = false then [.respond false]
        else [.sample (.en s.ports.pEn), .respond (s.regs.transmitActive && s.ports.pEn)] }

/-- R132: with no enabled provider the response is 0 whatever `transmit_active` and `P_EN` are; with one, it is 1 exactly when
`transmit_active` and `P_EN` are both 1 (the truth table). -/
def Obligations.MissingEnabledProviderAnswersFalse : Prop :=
  ∀ s : State, ∃ t, exec .isActive s = .next t ∧
    ∃ actions, t.trace = s.trace ++ actions ∧
      (s.regs.provEn = false → responsesOf actions = [false]) ∧
      (s.regs.provEn = true →
        responsesOf actions = [decide (s.regs.transmitActive = true ∧ s.ports.pEn = true)])

/-- R131: the query does not look at the envelope, the phase, `init`, `prov_freq`, `prov_vol` or `block_size`: two states that agree on
`transmit_active`, `prov_en` and `P_EN` get the same response. With the enabled provider answering true the response is the value of the
last SET_TX from the edge on, before any frame and after any GENERATE, whatever the envelope has come to; and it is 0 after reset, INIT
and TEARDOWN. -/
def Obligations.IsActiveIgnoresEnvelope : Prop :=
  (∀ s u s' u' : State, s.regs.transmitActive = u.regs.transmitActive → s.regs.provEn = u.regs.provEn →
    s.ports.pEn = u.ports.pEn → exec .isActive s = .next s' → exec .isActive u = .next u' →
    ∃ actions, s'.trace = s.trace ++ actions ∧ u'.trace = u.trace ++ actions) ∧
  (∀ (active v : Bool) (outBase : WordIndex) (frameCount sampleRate : Int) (s t u : State),
    s.regs.provEn = true → s.ports.pEn = true → exec (.setTx active) s = .next t →
    u = t ∨ exec (.generate v outBase frameCount sampleRate) t = .next u →
    ∃ w actions, exec .isActive u = .next w ∧ w.trace = u.trace ++ actions ∧ responsesOf actions = [active]) ∧
  (∀ s t u : State, s.regs = State.reset.regs ∨ (∃ n, exec (.init n) t = .next s) ∨ exec .teardown t = .next s →
    exec .isActive s = .next u → ∃ actions, u.trace = s.trace ++ actions ∧ responsesOf actions = [false])

/-- R69: only IS_ACTIVE responds, and it responds exactly once. -/
def Obligations.OnlyIsActiveResponds : Prop :=
  ∀ (i : Instr) (s t : State), exec i s = .next t →
    ∃ actions, t.trace = s.trace ++ actions ∧
      (i ≠ .isActive → responsesOf actions = []) ∧ (i = .isActive → (responsesOf actions).length = 1)

/-! ### Generation: guards and result (42_generate.md) -/

/-- R101: a null buffer or an uninitialised generator makes GENERATE a no-op: nothing written, nothing changed, no port sampled,
whatever the counts, the rates and the provider flags are. -/
def Obligations.GenerateNoOpGuard : Prop :=
  ∀ (v : Bool) (outBase : WordIndex) (frameCount sampleRate : Int) (s : State),
    v = false ∨ s.regs.init = false → exec (.generate v outBase frameCount sampleRate) s = .next s

/-- R102: with the frequency or the volume provider missing GENERATE writes positive zero to all `2n` words, samples no port, and leaves
`S` bit for bit unchanged; `prov_en` does not matter. -/
def Obligations.GenerateSilence : Prop :=
  ∀ (outBase : WordIndex) (frameCount sampleRate : Int) (s : State),
    WellFormed (.generate true outBase frameCount sampleRate) → s.regs.init = true →
    s.regs.provFreq = false ∨ s.regs.provVol = false →
    ∃ t, exec (.generate true outBase frameCount sampleRate) s = .next t ∧
      t.regs = s.regs ∧ t.ports = s.ports ∧ t.pending = s.pending ∧ t.allocOk = s.allocOk ∧
      (∃ actions, t.trace = s.trace ++ actions ∧ samplesOf actions = [] ∧ responsesOf actions = [] ∧
        writesOf actions =
          (List.range (2 * frameTurns frameCount)).map fun j => (sampleIndex outBase j, 0x0000000000000000#64)) ∧
      (∀ j < 2 * frameTurns frameCount,
        Memory.readWord t.out (sampleIndex outBase j) = some 0x0000000000000000#64)

/-- R104: a zero or negative `frame_count` gives no frames, writes nothing and changes no field of `S`, whatever the guards say; a positive
one gives that many frames, two words each, whenever the guards let GENERATE write, whatever `block_size` holds; the largest a command
can carry is 2^31 - 1. -/
def Obligations.FrameCountRule : Prop :=
  (∀ (v : Bool) (outBase : WordIndex) (frameCount sampleRate : Int) (s : State), frameCount ≤ 0 →
    ∃ t, exec (.generate v outBase frameCount sampleRate) s = .next t ∧ t.regs = s.regs ∧ t.out = s.out ∧
      ∃ actions, t.trace = s.trace ++ actions ∧ writesOf actions = [] ∧ responsesOf actions = []) ∧
  (∀ (outBase : WordIndex) (frameCount sampleRate : Int) (s : State), 0 < frameCount → s.regs.init = true →
    ∃ t, exec (.generate true outBase frameCount sampleRate) s = .next t ∧
      ∃ actions, t.trace = s.trace ++ actions ∧ ((writesOf actions).length : Int) = 2 * frameCount) ∧
  (∀ (v : Bool) (outBase : WordIndex) (frameCount sampleRate : Int),
    WellFormed (.generate v outBase frameCount sampleRate) → frameCount ≤ 2 ^ 31 - 1)

/-- The generation path of GENERATE in closed form: the phase increment is
`fdiv(fmul(TWO_PI, i2f(freq)), i2f(sample_rate))`, computed once, from the sampled frequency; `S` after GENERATE is `S` with the frame
applied `n` times; the port actions are the two samples and then, frame by frame, the same sample to the left word and the right word;
`OUT` is what those writes make of it; nothing else changes. That the sample of `P_FREQ` stands before that of `P_VOL` is the model's
choice (log 10), and that both stand in the record when `n` = 0 is its reading (log 17). -/
def Obligations.GenerateToneResult : Prop :=
  ∀ (outBase : WordIndex) (frameCount sampleRate : Int) (s : State),
    s.regs.init = true → s.regs.provFreq = true → s.regs.provVol = true →
    ∃ (t : State) (delta : F64) (actions : List PortAction),
      exec (.generate true outBase frameCount sampleRate) s = .next t ∧
      delta = fdiv (fmul 0x401921FB54442D18#64 (i2f (s32 s.ports.pFreq))) (i2f sampleRate) ∧
      actions = [.sample (.freq s.ports.pFreq), .sample (.vol s.ports.pVol)] ++
        ((List.range (frameTurns frameCount)).flatMap fun k =>
          framePair outBase k (frameSample Config.sin s.ports.pVol ((frameNext delta)^[k] s.regs))) ∧
      t.regs = (frameNext delta)^[frameTurns frameCount] s.regs ∧
      t.out = Memory.actAll s.out actions ∧ t.trace = s.trace ++ actions ∧
      t.ports = s.ports ∧ t.pending = s.pending ∧ t.allocOk = s.allocOk

/-- R112: every frame's two words, read after GENERATE: the same 64 bits in both, at the word indices of R43; and what they hold, the
product `SIN(phase) × volume × envelope`, taken left to right, of the state that frame starts from. -/
def Obligations.GenerateToneWords : Prop :=
  ∀ (outBase : WordIndex) (frameCount sampleRate : Int) (s : State),
    WellFormed (.generate true outBase frameCount sampleRate) →
    s.regs.init = true → s.regs.provFreq = true → s.regs.provVol = true →
    ∃ (t : State) (delta : F64), exec (.generate true outBase frameCount sampleRate) s = .next t ∧
      delta = fdiv (fmul 0x401921FB54442D18#64 (i2f (s32 s.ports.pFreq))) (i2f sampleRate) ∧
      ∀ i < frameTurns frameCount, ∀ r, r = (frameNext delta)^[i] s.regs →
        Memory.readWord t.out (outBase + BitVec.ofNat 32 (2 * i)) =
            some (fmul (fmul (Config.sin r.phase) s.ports.pVol) (envelopeValue r)) ∧
        Memory.readWord t.out (outBase + BitVec.ofNat 32 (2 * i + 1)) =
            some (fmul (fmul (Config.sin r.phase) s.ports.pVol) (envelopeValue r))

/-- The frame of GENERATE: in `S` it writes `phase`, `envelope_state` and `envelope_counter` alone; every byte of `OUT` outside the words
`out_base` to `out_base + 2n - 1` (modulo 2^32) reads as before, and every byte at all where it is a no-op or has no frames. The byte
addresses of a word are the model's choice (log 1). -/
def Obligations.GenerateFrame : Prop :=
  ∀ (v : Bool) (outBase : WordIndex) (frameCount sampleRate : Int) (s t : State),
    exec (.generate v outBase frameCount sampleRate) s = .next t →
    t.regs.transmitActive = s.regs.transmitActive ∧ t.regs.init = s.regs.init ∧ t.regs.provEn = s.regs.provEn ∧
    t.regs.provFreq = s.regs.provFreq ∧ t.regs.provVol = s.regs.provVol ∧ t.regs.blockSize = s.regs.blockSize ∧
    t.ports = s.ports ∧ t.pending = s.pending ∧ t.allocOk = s.allocOk ∧
    (∀ a : Nat,
      (∀ j < 2 * frameTurns frameCount,
        ¬(8 * (sampleIndex outBase j).toNat ≤ a ∧ a < 8 * (sampleIndex outBase j).toNat + 8)) →
      Memory.read t.out a = Memory.read s.out a) ∧
    (v = false ∨ s.regs.init = false ∨ frameCount ≤ 0 → ∀ a : Nat, Memory.read t.out a = Memory.read s.out a)

/-- The commands that store nothing leave `OUT` and the list of output writes as they were. -/
def Obligations.OnlyGenerateWritesOut : Prop :=
  ∀ (i : Instr) (s t : State), (∀ v b n r, i ≠ .generate v b n r) → exec i s = .next t →
    (∀ a : Nat, Memory.read t.out a = Memory.read s.out a) ∧
    ∃ actions, t.trace = s.trace ++ actions ∧ writesOf actions = []

/-- The output writes of one GENERATE go to ascending offsets 0, 1, 2, …, `2n - 1` from `out_base`, on the tone path and on the silence
path alike. -/
def Obligations.WritesAscend : Prop :=
  ∀ (outBase : WordIndex) (frameCount sampleRate : Int) (s : State), s.regs.init = true →
    ∃ t, exec (.generate true outBase frameCount sampleRate) s = .next t ∧
      ∃ actions, t.trace = s.trace ++ actions ∧
        (writesOf actions).map Prod.fst = (List.range (2 * frameTurns frameCount)).map (sampleIndex outBase)

/-- `P_FREQ` and `P_VOL` are each sampled exactly once per GENERATE that passes both guards, and no port is sampled otherwise;
`GENERATE` never samples `P_EN` and its result does not depend on `prov_en` or `P_EN`. The order of the two samples in the record is
the model's choice (log 10), and that they stand there when `n` = 0 as well is its reading (log 17). -/
def Obligations.GenerateSamplesPortsOnce : Prop :=
  (∀ (v : Bool) (outBase : WordIndex) (frameCount sampleRate : Int) (s t : State),
    exec (.generate v outBase frameCount sampleRate) s = .next t →
    ∃ actions, t.trace = s.trace ++ actions ∧
      samplesOf actions =
        if v = true ∧ s.regs.init = true ∧ s.regs.provFreq = true ∧ s.regs.provVol = true
        then [.freq s.ports.pFreq, .vol s.ports.pVol] else []) ∧
  (∀ (v : Bool) (outBase : WordIndex) (frameCount sampleRate : Int) (s t : State) (en pEn : Bool),
    exec (.generate v outBase frameCount sampleRate) s = .next t →
    exec (.generate v outBase frameCount sampleRate)
        { s with regs := { s.regs with provEn := en }, ports := { s.ports with pEn := pEn } } =
      .next { t with regs := { t.regs with provEn := en }, ports := { t.ports with pEn := pEn } })

/-- A port whose presence flag is 0 is ignored: driving other values onto it changes neither `S` nor the port actions of any command. -/
def Obligations.AbsentProvidersIgnored : Prop :=
  ∀ (i : Instr) (s t : State) (p : Ports),
    (s.regs.provEn = true → p.pEn = s.ports.pEn) → (s.regs.provFreq = true → p.pFreq = s.ports.pFreq) →
    (s.regs.provVol = true → p.pVol = s.ports.pVol) → exec i s = .next t →
    exec i { s with ports := p } = .next { t with ports := p }

/-! ### Generation: envelope -/

/-- R107: the fade-in. From FadeIn with counter 0, frame `i` of the 48 has envelope `fdiv(i2f(i), F(48.0))` and leaves counter `i + 1`;
frame 0 has exactly 0; frame 47 has 47/48 and is the frame on which the state becomes Sustain; later frames have envelope 1, and the
counter stays 48. Frames 0 to 46 leave FadeIn, and no frame of the fade-in has envelope 1. And one frame of FadeIn from any counter
the 32-bit register can increment, reachable or not: the switch is by `>=`. -/
def Obligations.FadeInRamp : Prop :=
  (∀ (delta : F64) (r : Regs), r.envelopeState = .fadeIn → r.envelopeCounter.toNat + 1 < 2 ^ 32 →
    envelopeValue r = fdiv (i2f r.envelopeCounter.toNat) (i2f 48) ∧
    (frameNext delta r).envelopeCounter.toNat = r.envelopeCounter.toNat + 1 ∧
    (frameNext delta r).envelopeState = (if 48 ≤ r.envelopeCounter.toNat + 1 then .sustain else .fadeIn)) ∧
  (∀ (delta : F64) (r : Regs), r.envelopeState = .fadeIn → r.envelopeCounter = 0#32 →
    (∀ i < 48, envelopeValue ((frameNext delta)^[i] r) = fdiv (i2f i) (i2f 48) ∧
      envelopeValue ((frameNext delta)^[i] r) ≠ fOne ∧
      ((frameNext delta)^[i] r).envelopeState = .fadeIn ∧
      ((frameNext delta)^[i] r).envelopeCounter = BitVec.ofNat 32 i) ∧
    envelopeValue r = fZero ∧ envelopeValue ((frameNext delta)^[47] r) = 0x3FEF555555555555#64 ∧
    (∀ i, 48 ≤ i → envelopeValue ((frameNext delta)^[i] r) = fOne ∧
      ((frameNext delta)^[i] r).envelopeState = .sustain ∧ ((frameNext delta)^[i] r).envelopeCounter = 48#32))

/-- R108: the fade-out. From FadeOut with counter 0, frame `i` for 0 <= i <= 46 has envelope `fsub(F(1.0), fdiv(i2f(i), F(48.0)))`;
frame 0 has exactly 1; frame 46 has `0x3FA5555555555550`; frame 47 is forced to exactly 0 instead of the formula's
`0x3F95555555555560` and is the frame on which the state becomes Idle; later frames have envelope 0, and the counter stays 48. And one
frame of FadeOut from any counter the 32-bit register can increment, reachable or not. -/
def Obligations.FadeOutRamp : Prop :=
  (∀ (delta : F64) (r : Regs), r.envelopeState = .fadeOut → r.envelopeCounter.toNat + 1 < 2 ^ 32 →
    envelopeValue r = (if 48 ≤ r.envelopeCounter.toNat + 1 then 0x0000000000000000#64
      else fsub fOne (fdiv (i2f r.envelopeCounter.toNat) (i2f 48))) ∧
    (frameNext delta r).envelopeCounter.toNat = r.envelopeCounter.toNat + 1 ∧
    (frameNext delta r).envelopeState = (if 48 ≤ r.envelopeCounter.toNat + 1 then .idle else .fadeOut)) ∧
  (∀ (delta : F64) (r : Regs), r.envelopeState = .fadeOut → r.envelopeCounter = 0#32 →
    (∀ i < 47, envelopeValue ((frameNext delta)^[i] r) = fsub fOne (fdiv (i2f i) (i2f 48)) ∧
      isZero (envelopeValue ((frameNext delta)^[i] r)) = false) ∧
    (∀ i < 48, ((frameNext delta)^[i] r).envelopeState = .fadeOut ∧
      ((frameNext delta)^[i] r).envelopeCounter = BitVec.ofNat 32 i) ∧
    envelopeValue r = fOne ∧ envelopeValue ((frameNext delta)^[46] r) = 0x3FA5555555555550#64 ∧
    envelopeValue ((frameNext delta)^[47] r) = fZero ∧
    fsub fOne (fdiv (i2f 47) (i2f 48)) = 0x3F95555555555560#64 ∧
    (∀ i, 48 ≤ i → envelopeValue ((frameNext delta)^[i] r) = fZero ∧
      ((frameNext delta)^[i] r).envelopeState = .idle ∧ ((frameNext delta)^[i] r).envelopeCounter = 48#32))

/-- R109: in Sustain the envelope is exactly 1 and in Idle exactly 0, on every frame, whatever the counter holds, and no frame leaves the
state or touches the counter; of all commands only SET_TX, and the two that put Idle there (INIT, TEARDOWN), can leave these states. -/
def Obligations.SustainAndIdleHold : Prop :=
  (∀ (delta : F64) (r : Regs) (k : Nat), r.envelopeState = .sustain ∨ r.envelopeState = .idle →
    ((frameNext delta)^[k] r).envelopeState = r.envelopeState ∧
    ((frameNext delta)^[k] r).envelopeCounter = r.envelopeCounter ∧
    (r.envelopeState = .sustain → envelopeValue ((frameNext delta)^[k] r) = 0x3FF0000000000000#64) ∧
    (r.envelopeState = .idle → envelopeValue ((frameNext delta)^[k] r) = 0x0000000000000000#64)) ∧
  (∀ (i : Instr) (s t : State), s.regs.envelopeState = .sustain ∨ s.regs.envelopeState = .idle →
    (∀ n, i ≠ .init n) → i ≠ .teardown → (∀ a, i ≠ .setTx a) → exec i s = .next t →
    t.regs.envelopeState = s.regs.envelopeState ∧ t.regs.envelopeCounter = s.regs.envelopeCounter)

/-- R106: the fade does not depend on the sample rate: under any two sample rates, frequencies and volumes GENERATE leaves the same
envelope state and counter, every frame has the same envelope, and `fade_length` is 48; and `sample_rate` enters through the phase
increment only: two rates that give the same increment give the same everything. -/
def Obligations.FadeLengthIndependentOfRate : Prop :=
  (∀ r : Regs, r.fadeLength = 48) ∧
  (∀ (freq freq' sampleRate sampleRate' : Int) (r : Regs) (k : Nat),
    envelopeValue ((frameNext (phaseIncrement freq sampleRate))^[k] r) =
      envelopeValue ((frameNext (phaseIncrement freq' sampleRate'))^[k] r)) ∧
  (∀ (v : Bool) (outBase : WordIndex) (frameCount sampleRate sampleRate' : Int) (s t t' : State) (p : Ports),
    exec (.generate v outBase frameCount sampleRate) s = .next t →
    exec (.generate v outBase frameCount sampleRate') { s with ports := p } = .next t' →
    t'.regs.envelopeState = t.regs.envelopeState ∧ t'.regs.envelopeCounter = t.regs.envelopeCounter) ∧
  (∀ (v : Bool) (outBase : WordIndex) (frameCount sampleRate sampleRate' : Int) (s : State),
    phaseIncrement (s32 s.ports.pFreq) sampleRate' = phaseIncrement (s32 s.ports.pFreq) sampleRate →
    exec (.generate v outBase frameCount sampleRate') s = exec (.generate v outBase frameCount sampleRate) s)

/-- A complete keying cycle from the commands: a rising edge and at least 48 frames end in Sustain with counter 48; a falling edge and at
least 48 frames end in Idle with counter 48; both with providers registered. -/
def Obligations.KeyingCycle : Prop :=
  ∀ (active : Bool) (outBase : WordIndex) (frameCount sampleRate : Int) (s : State),
    s.regs.init = true → s.regs.provFreq = true → s.regs.provVol = true → active ≠ s.regs.transmitActive →
    48 ≤ frameCount →
    ∃ t u, exec (.setTx active) s = .next t ∧ exec (.generate true outBase frameCount sampleRate) t = .next u ∧
      u.regs.envelopeState = (if active = true then .sustain else .idle) ∧ u.regs.envelopeCounter = 48#32 ∧
      u.regs.transmitActive = active

/-! ### Generation: oscillator -/

/-- R111: one step of the phase: the rounded sum, one comparison `>=` with `TWO_PI`, at most one subtraction; a sum equal to `TWO_PI`
wraps to positive zero; and GENERATE advances the phase this way once per frame. -/
def Obligations.PhaseAdvance : Prop :=
  (∀ delta p : F64, fge (fadd p delta) Config.twoPi = true →
    phaseStep delta p = fsub (fadd p delta) Config.twoPi) ∧
  (∀ delta p : F64, fge (fadd p delta) Config.twoPi = false → phaseStep delta p = fadd p delta) ∧
  (∀ delta p : F64, fadd p delta = Config.twoPi → phaseStep delta p = fZero) ∧
  (∀ (outBase : WordIndex) (frameCount sampleRate : Int) (s : State),
    s.regs.init = true → s.regs.provFreq = true → s.regs.provVol = true →
    ∃ t, exec (.generate true outBase frameCount sampleRate) s = .next t ∧
      t.regs.phase =
        (phaseStep (phaseIncrement (s32 s.ports.pFreq) sampleRate))^[frameTurns frameCount] s.regs.phase)

/-- GENERATE keeps the phase in `[0, TWO_PI)` when the phase increment is in `[0, TWO_PI)`. -/
def Obligations.GenerateKeepsPhaseRange : Prop :=
  ∀ (v : Bool) (outBase : WordIndex) (frameCount sampleRate : Int) (s t : State),
    PhaseInRange s.regs.phase → PhaseInRange (phaseIncrement (s32 s.ports.pFreq) sampleRate) →
    exec (.generate v outBase frameCount sampleRate) s = .next t → PhaseInRange t.regs.phase

/-- The phase increment is in `[0, TWO_PI)` for every frequency from 0 up to, not including, the sample rate; the supported range, 200 to
1200 Hz at 8000 Hz or more, is part of it. -/
def Obligations.IncrementBelowTwoPi : Prop :=
  ∀ freq sampleRate : Int, 0 ≤ freq → freq < sampleRate → InS32 sampleRate →
    PhaseInRange (phaseIncrement freq sampleRate)

/-- After `k` frames from phase 0 the phase is `(k · delta) mod TWO_PI` up to rounding: some whole number of turns `w`, at most `k`, away
from `k · delta` by no more than `k · 2^-50` (values in units of 2^-1074). The spec gives no number for the tolerance; this bound is the
model's, derived from round-to-nearest below 16 (log 13). -/
def Obligations.PhaseAccumulates : Prop :=
  ∀ (delta : F64) (k : Nat), PhaseInRange delta →
    ∃ w : Nat, w ≤ k ∧
      |units ((phaseStep delta)^[k] fZero) - ((k : Int) * units delta - (w : Int) * units Config.twoPi)| ≤
        (k : Int) * 2 ^ 1024

/-- A NaN in the phase or the increment makes the phase a NaN, and it stays one under GENERATE, until INIT, TEARDOWN or a rising edge
writes positive zero. -/
def Obligations.NanPhasePersists : Prop :=
  (∀ delta p : F64, isNaN delta = true ∨ isNaN p = true → isNaN (phaseStep delta p) = true) ∧
  (∀ (v : Bool) (outBase : WordIndex) (frameCount sampleRate : Int) (s t : State), isNaN s.regs.phase = true →
    exec (.generate v outBase frameCount sampleRate) s = .next t → isNaN t.regs.phase = true) ∧
  (∀ (n : Int) (s : State), ∃ t, exec (.init n) s = .next t ∧ t.regs.phase = fZero) ∧
  (∀ s : State, ∃ t, exec .teardown s = .next t ∧ t.regs.phase = fZero) ∧
  (∀ s : State, s.regs.transmitActive = false → ∃ t, exec (.setTx true) s = .next t ∧ t.regs.phase = fZero)

/-- `sample_rate` = 0 makes the increment an infinity with the sign of the frequency, and a NaN when the frequency is 0 too; an infinite
increment makes a finite phase that infinity after one frame, and it stays there. -/
def Obligations.ZeroSampleRate : Prop :=
  (∀ freq : Int, InS32 freq → freq ≠ 0 →
    phaseIncrement freq 0 = if freq < 0 then 0xFFF0000000000000#64 else 0x7FF0000000000000#64) ∧
  isNaN (phaseIncrement 0 0) = true ∧
  (∀ delta p : F64, isInf delta = true → isFinite p = true →
    ∀ k : Nat, (phaseStep delta)^[k + 1] p = delta)

/-- Samples that are not finite. NaN: for a sine unit with `SIN_NONFINITE`, every sample from a phase that is an infinity or a NaN; for
every sine unit, every sample of an infinite or NaN volume where the envelope is 0, and every sample of a NaN volume. NaN or infinite:
every sample of an infinite or NaN volume, whatever the sine unit gives and whatever the envelope is. Infinite, with the sign of the
product: a sample of an infinite volume where neither `SIN(phase)` nor the envelope is a zero or a NaN. What an infinity times a zero
or times another value gives is IEEE 754's (log 16). -/
def Obligations.NonfiniteSamples : Prop :=
  (∀ (sin : F64 → F64) (vol : F64) (r : Regs), SinNonfinite sin → isFinite r.phase = false →
    isNaN (frameSample sin vol r) = true) ∧
  (∀ (sin : F64 → F64) (vol : F64) (r : Regs), isFinite vol = false → envelopeValue r = fZero →
    isNaN (frameSample sin vol r) = true) ∧
  (∀ (sin : F64 → F64) (vol : F64) (r : Regs), isNaN vol = true → isNaN (frameSample sin vol r) = true) ∧
  (∀ (sin : F64 → F64) (vol : F64) (r : Regs), isFinite vol = false → isFinite (frameSample sin vol r) = false) ∧
  (∀ (sin : F64 → F64) (vol : F64) (r : Regs), isInf vol = true →
    isNaN (sin r.phase) = false → isZero (sin r.phase) = false →
    isNaN (envelopeValue r) = false → isZero (envelopeValue r) = false →
    isInf (frameSample sin vol r) = true ∧
      fSign (frameSample sin vol r) = ((fSign (sin r.phase) != fSign vol) != fSign (envelopeValue r)))

/-- An Idle frame with a finite phase and a finite volume is silent: a zero, its sign the sign of `SIN(phase) × volume`, for every sine
unit with `SIN_BOUND`. -/
def Obligations.IdleFramesAreSilent : Prop :=
  ∀ (sin : F64 → F64) (vol : F64) (r : Regs), SinBound sin → isFinite r.phase = true → isFinite vol = true →
    r.envelopeState = .idle →
    isZero (frameSample sin vol r) = true ∧ fSign (frameSample sin vol r) = (fSign (sin r.phase) != fSign vol)

/-- R114: the phase advances on every frame in every envelope state, Idle included, and alike in all of them: `k` frames from two states
with the same phase end with the same phase. -/
def Obligations.PhaseAdvancesInEveryState : Prop :=
  ∀ (delta : F64) (r q : Regs) (k : Nat), r.phase = q.phase →
    ((frameNext delta)^[k] r).phase = (phaseStep delta)^[k] r.phase ∧
    ((frameNext delta)^[k] q).phase = ((frameNext delta)^[k] r).phase

/-- The result of `SIN` flows into the samples only: with any two sine units GENERATE leaves the same `S`, samples the same ports and
writes the same words. -/
def Obligations.SinNeverReachesState : Prop :=
  ∀ (sin sin' : F64 → F64) (v : Bool) (outBase : WordIndex) (frameCount sampleRate : Int) (p : Ports) (r : Regs),
    (generateEffect sin v outBase frameCount sampleRate p r).regs =
        (generateEffect sin' v outBase frameCount sampleRate p r).regs ∧
    samplesOf (generateEffect sin v outBase frameCount sampleRate p r).actions =
        samplesOf (generateEffect sin' v outBase frameCount sampleRate p r).actions ∧
    (writesOf (generateEffect sin v outBase frameCount sampleRate p r).actions).map Prod.fst =
        (writesOf (generateEffect sin' v outBase frameCount sampleRate p r).actions).map Prod.fst

/-- Splitting one GENERATE of `n1 + n2` frames into two consecutive ones with the same port values and consecutive buffers gives the same
writes, the same `OUT` and the same `S`. -/
def Obligations.SplitGenerateSame : Prop :=
  ∀ (v : Bool) (outBase : WordIndex) (n₁ n₂ : Nat) (sampleRate : Int) (s : State),
    ∃ t u w, exec (.generate v outBase n₁ sampleRate) s = .next t ∧
      exec (.generate v (outBase + BitVec.ofNat 32 (2 * n₁)) n₂ sampleRate) t = .next u ∧
      exec (.generate v outBase ((n₁ : Int) + n₂) sampleRate) s = .next w ∧
      u.regs = w.regs ∧ u.out = w.out ∧ writesOf u.trace = writesOf w.trace

/-! ### Arithmetic (00_scope.md) -/

/-- `fadd` and `fsub` of finite operands are the exact sum and difference (values in units of 2^-1074) rounded to nearest even, an
infinity exactly when that is 2^1024 - 2^970 or more in magnitude; the sign of the result, an overflow's among them, is the sign of the
exact one. The sign of a zero result and the results on infinite operands are IEEE 754's (log 16); a NaN operand gives a NaN. -/
def Obligations.SumRoundsToNearestEven : Prop :=
  (∀ x y : F64, isFinite x = true → isFinite y = true →
    RoundsTo (fadd x y) (units x + units y) 1 ∧
    fSign (fadd x y) = (if units x + units y = 0 then fSign x && fSign y else decide (units x + units y < 0))) ∧
  (∀ x y : F64, isFinite x = true → isFinite y = true →
    RoundsTo (fsub x y) (units x - units y) 1 ∧
    fSign (fsub x y) = (if units x - units y = 0 then fSign x && !fSign y else decide (units x - units y < 0))) ∧
  (∀ x y : F64, isInf x = true → isFinite y = true →
    fadd x y = x ∧ fadd y x = x ∧ fsub x y = x ∧
    isInf (fsub y x) = true ∧ fSign (fsub y x) = !fSign x) ∧
  (∀ x y : F64, isInf x = true → isInf y = true →
    (fSign x = fSign y → fadd x y = x ∧ isNaN (fsub x y) = true) ∧
    (fSign x ≠ fSign y → isNaN (fadd x y) = true ∧ fsub x y = x)) ∧
  (∀ x y : F64, isNaN x = true ∨ isNaN y = true → isNaN (fadd x y) = true ∧ isNaN (fsub x y) = true)

/-- `fmul` of finite operands is the exact product rounded to nearest even, an infinity exactly on overflow; its sign, an overflow's and
an underflow's among them, is negative exactly when the operands' signs differ. The results on infinite operands and the sign of a zero
are IEEE 754's (log 16); a NaN operand gives a NaN. -/
def Obligations.ProductRoundsToNearestEven : Prop :=
  (∀ x y : F64, isFinite x = true → isFinite y = true →
    RoundsTo (fmul x y) (units x * units y) (2 ^ 1074) ∧ fSign (fmul x y) = (fSign x != fSign y)) ∧
  (∀ x y : F64, isInf x = true → isNaN y = false → isZero y = false →
    (isInf (fmul x y) = true ∧ fSign (fmul x y) = (fSign x != fSign y)) ∧
    isInf (fmul y x) = true ∧ fSign (fmul y x) = (fSign x != fSign y)) ∧
  (∀ x y : F64, isInf x = true → isZero y = true → isNaN (fmul x y) = true ∧ isNaN (fmul y x) = true) ∧
  (∀ x y : F64, isNaN x = true ∨ isNaN y = true → isNaN (fmul x y) = true)

/-- `fdiv` of finite operands, the divisor not zero, is the exact quotient rounded to nearest even, an infinity exactly on overflow; its
sign is negative exactly when the operands' signs differ. The results on infinite operands and on a zero divisor, and the sign of a
zero, are IEEE 754's (log 16); a NaN operand gives a NaN. -/
def Obligations.QuotientRoundsToNearestEven : Prop :=
  (∀ x y : F64, isFinite x = true → isFinite y = true → isZero y = false →
    RoundsTo (fdiv x y) (units x * 2 ^ 1074) (units y) ∧ fSign (fdiv x y) = (fSign x != fSign y)) ∧
  (∀ x y : F64, isInf x = true → isFinite y = true →
    (isInf (fdiv x y) = true ∧ fSign (fdiv x y) = (fSign x != fSign y)) ∧
    isZero (fdiv y x) = true ∧ fSign (fdiv y x) = (fSign x != fSign y)) ∧
  (∀ x y : F64, isInf x = true → isInf y = true → isNaN (fdiv x y) = true) ∧
  (∀ x y : F64, isFinite x = true → isZero x = false → isZero y = true →
    isInf (fdiv x y) = true ∧ fSign (fdiv x y) = (fSign x != fSign y)) ∧
  (∀ x y : F64, isZero x = true → isZero y = true → isNaN (fdiv x y) = true) ∧
  (∀ x y : F64, isNaN x = true ∨ isNaN y = true → isNaN (fdiv x y) = true)

/-- `i2f` is exact for every signed and every unsigned 32-bit integer, and gives positive zero for 0; `fge` on finite values is the order
of the values, with an infinity above or below every finite value and equal to itself (log 16), false when an operand is a NaN, true of
the two zeros both ways. -/
def Obligations.IntegersExactAndOrder : Prop :=
  (∀ n : Int, |n| < 2 ^ 53 →
    isFinite (i2f n) = true ∧ units (i2f n) = n * 2 ^ 1074 ∧ fSign (i2f n) = decide (n < 0)) ∧
  (∀ x y : F64, isFinite x = true → isFinite y = true → (fge x y = true ↔ units y ≤ units x)) ∧
  (∀ x y : F64, isInf x = true → isNaN y = false →
    (fge x y = true ↔ fSign x = false ∨ (isInf y = true ∧ fSign y = true)) ∧
    (fge y x = true ↔ fSign x = true ∨ (isInf y = true ∧ fSign y = false))) ∧
  (∀ x y : F64, isNaN x = true ∨ isNaN y = true → fge x y = false) ∧
  fge 0x0000000000000000#64 0x8000000000000000#64 = true ∧ fge 0x8000000000000000#64 0x0000000000000000#64 = true

/-! ### Invariants -/

/-- Every step keeps the invariant of 10_state.md R37 (a), (b), (c), from every state that meets it. -/
def Obligations.StepKeepsInvariant : Prop := ∀ s t : State, s.regs.Inv → step s = .next t → t.regs.Inv

/-- The reset state meets the invariant of 10_state.md R37 (a), (b), (c), and `OUT` there is in canonical form (the model's own list form,
log 1, log 2). -/
def Obligations.ResetMeetsInvariants : Prop := State.reset.regs.Inv ∧ Memory.wf State.reset.out

/-- On every state reachable from reset by any sequence of commands, with any port values (and any `rst`), the invariant holds; and
with `init` = 0 GENERATE changes nothing. -/
def Obligations.ReachableStatesMeetInvariant : Prop :=
  ∀ (events : List HostEvent) (s : State), ReachableFrom { State.reset with pending := events } s →
    s.regs.Inv ∧
    (s.regs.init = false → ∀ (v : Bool) (outBase : WordIndex) (frameCount sampleRate : Int),
      exec (.generate v outBase frameCount sampleRate) s = .next s)
end

