-- ==== Sys2Proof/Laws/Binary64.lean ====
section
/-! SUPPORT. What the binary64 primitives do, said once: fields of a packed value, the value of a magnitude, and rounding (exact on
representable values, monotone, within half a unit in the last place, overflow). -/

namespace Sys2Proof.Machine

/-! ### Fields of a packed value -/

theorem infMag_lt : infMag < 2 ^ 63 := by decide

theorem fMag_lt (x : F64) : fMag x < 2 ^ 63 := Nat.mod_lt _ (by decide)

theorem toNat_pack (neg : Bool) {mag : Nat} (h : mag < 2 ^ 63) :
    (pack neg mag).toNat = (if neg then 2 ^ 63 else 0) + mag := by
  unfold pack
  rw [BitVec.toNat_ofNat]
  apply Nat.mod_eq_of_lt
  cases neg <;> simp <;> omega

theorem fMag_pack (neg : Bool) {mag : Nat} (h : mag < 2 ^ 63) : fMag (pack neg mag) = mag := by
  unfold fMag
  rw [toNat_pack neg h]
  cases neg
  · simp; omega
  · simp; omega

theorem fSign_eq (x : F64) : fSign x = decide (2 ^ 63 ≤ x.toNat) := by
  unfold fSign
  rw [BitVec.msb_eq_decide]

theorem fSign_pack (neg : Bool) {mag : Nat} (h : mag < 2 ^ 63) : fSign (pack neg mag) = neg := by
  rw [fSign_eq, toNat_pack neg h]
  cases neg <;> simp <;> omega

theorem toNat_eq_fields (x : F64) : x.toNat = (if fSign x then 2 ^ 63 else 0) + fMag x := by
  have hx := x.isLt
  rw [fSign_eq]
  unfold fMag
  simp only [decide_eq_true_eq]
  split <;> omega

theorem pack_fields (x : F64) : pack (fSign x) (fMag x) = x := by
  apply BitVec.eq_of_toNat_eq
  rw [toNat_pack _ (fMag_lt x), ← toNat_eq_fields]

theorem isNaN_iff (x : F64) : isNaN x = true ↔ infMag < fMag x := by simp [isNaN]

theorem isNaN_false_iff (x : F64) : isNaN x = false ↔ fMag x ≤ infMag := by simp [isNaN]

theorem isInf_iff (x : F64) : isInf x = true ↔ fMag x = infMag := by simp [isInf]

theorem isFinite_iff (x : F64) : isFinite x = true ↔ fMag x < infMag := by simp [isFinite]

theorem isZero_iff (x : F64) : isZero x = true ↔ fMag x = 0 := by simp [isZero]

theorem isNaN_of_isFinite {x : F64} (h : isFinite x = true) : isNaN x = false := by
  rw [isFinite_iff] at h; rw [isNaN_false_iff]; omega

theorem isInf_of_isFinite {x : F64} (h : isFinite x = true) : isInf x = false := by
  rw [isFinite_iff] at h; simp [isInf]; omega

/-- An operation that must give a NaN gives one, whatever its free sign and payload are. -/
theorem isNaN_quietNaN (op : FloatOp) (x y : F64) : isNaN (quietNaN op x y) = true := by
  rw [isNaN_iff]
  have hmod : fMag (quietNaN op x y) =
      ((Config.nanBits op x y).toNat % 2 ^ 63) ||| 0x7FF8000000000000 := by
    unfold fMag quietNaN
    rw [BitVec.toNat_or, Nat.or_mod_two_pow]
    rfl
  rw [hmod]
  exact Nat.lt_of_lt_of_le (by decide) Nat.right_le_or

/-! ### The value of a magnitude -/

/-- The two ways a magnitude is written as a significand and a shift. -/
theorem unitsOfMag_shift {s m : Nat} (hm : m ≤ 2 ^ 53) (hs : s = 0 ∨ 2 ^ 52 ≤ m) :
    unitsOfMag (s * 2 ^ 52 + m) = m * 2 ^ s := by
  unfold unitsOfMag
  by_cases h1 : m < 2 ^ 52
  · obtain rfl : s = 0 := by omega
    have h0 : (0 * 2 ^ 52 + m) / 2 ^ 52 = 0 := by omega
    rw [if_pos h0]; simp
  · by_cases h2 : m = 2 ^ 53
    · subst h2
      have hd : (s * 2 ^ 52 + 2 ^ 53) / 2 ^ 52 = s + 2 := by omega
      have hr : (s * 2 ^ 52 + 2 ^ 53) % 2 ^ 52 = 0 := by omega
      rw [hd, hr, if_neg (by omega), show s + 2 - 1 = s + 1 by omega, pow_succ]
      ring
    · have hd : (s * 2 ^ 52 + m) / 2 ^ 52 = s + 1 := by omega
      have hr : (s * 2 ^ 52 + m) % 2 ^ 52 = m - 2 ^ 52 := by omega
      rw [hd, hr, if_neg (by omega), Nat.add_sub_cancel,
        show 2 ^ 52 + (m - 2 ^ 52) = m by omega]

/-- Every magnitude has a significand below 2^53 and a shift. -/
theorem mag_decompose (mag : Nat) :
    ∃ s m, mag = s * 2 ^ 52 + m ∧ m < 2 ^ 53 ∧ (s = 0 ∨ 2 ^ 52 ≤ m) := by
  by_cases h : mag / 2 ^ 52 = 0
  · exact ⟨0, mag, by omega, by omega, .inl rfl⟩
  · exact ⟨mag / 2 ^ 52 - 1, 2 ^ 52 + mag % 2 ^ 52, by omega, by omega, .inr (by omega)⟩

theorem unitsOfMag_zero : unitsOfMag 0 = 0 := by decide

theorem unitsOfMag_lt_succ (mag : Nat) : unitsOfMag mag < unitsOfMag (mag + 1) := by
  obtain ⟨s, m, rfl, hm, hs⟩ := mag_decompose mag
  rw [unitsOfMag_shift hm.le hs, add_assoc, unitsOfMag_shift (by omega) (by omega)]
  exact Nat.mul_lt_mul_of_pos_right (by omega) (by positivity)

/-- The order of magnitudes is the order of values. -/
theorem unitsOfMag_strictMono : StrictMono unitsOfMag := strictMono_nat_of_lt_succ unitsOfMag_lt_succ

theorem unitsOfMag_eq_zero {mag : Nat} : unitsOfMag mag = 0 ↔ mag = 0 := by
  rw [← unitsOfMag_zero]
  exact unitsOfMag_strictMono.injective.eq_iff

/-- Up to 53 significant bits are representable, at any shift. -/
theorem exists_mag_of_shift {j : Nat} (k : Nat) (hj : j ≤ 2 ^ 53) :
    ∃ mag, unitsOfMag mag = j * 2 ^ k := by
  induction k generalizing j with
  | zero => exact ⟨0 * 2 ^ 52 + j, unitsOfMag_shift hj (.inl rfl)⟩
  | succ k ih =>
    by_cases h : 2 ^ 52 ≤ j
    · exact ⟨(k + 1) * 2 ^ 52 + j, unitsOfMag_shift hj (.inr h)⟩
    · obtain ⟨mag, hmag⟩ := ih (j := 2 * j) (by omega)
      exact ⟨mag, by rw [hmag, pow_succ]; ring⟩

/-! ### Rounding to a whole number -/

/-- `roundHalfEven` is within a half, and even on a tie. -/
theorem roundHalfEven_spec (num : Nat) {den : Nat} (hd : 0 < den) :
    2 * num ≤ 2 * (roundHalfEven num den * den) + den ∧
    2 * (roundHalfEven num den * den) ≤ 2 * num + den ∧
    (2 * num = 2 * (roundHalfEven num den * den) + den → roundHalfEven num den % 2 = 0) ∧
    (2 * (roundHalfEven num den * den) = 2 * num + den → roundHalfEven num den % 2 = 0) := by
  have hdiv : num / den * den + num % den = num := Nat.div_add_mod' num den
  have hlt : num % den < den := Nat.mod_lt _ hd
  unfold roundHalfEven
  split
  · refine ⟨by omega, by omega, by omega, by omega⟩
  · split
    · rename_i _ htie
      rcases Nat.mod_two_eq_zero_or_one (num / den) with he | ho
      · rw [he]; refine ⟨by simp; omega, by simp; omega, fun _ => by simp; omega, fun _ => by simp; omega⟩
      · rw [ho, Nat.add_mul, one_mul]
        refine ⟨by omega, by omega, fun _ => by omega, fun _ => by omega⟩
    · rw [Nat.add_mul, one_mul]
      refine ⟨by omega, by omega, by omega, by omega⟩

theorem roundHalfEven_ge (num den : Nat) : num / den ≤ roundHalfEven num den := by
  unfold roundHalfEven; split
  · exact le_rfl
  · split <;> omega

theorem roundHalfEven_le (num den : Nat) : roundHalfEven num den ≤ num / den + 1 := by
  unfold roundHalfEven; split
  · omega
  · split <;> omega

/-- A whole number is its own rounding. -/
theorem roundHalfEven_mul {den : Nat} (k : Nat) (hd : 0 < den) : roundHalfEven (k * den) den = k := by
  unfold roundHalfEven
  rw [Nat.mul_mod_left, Nat.mul_div_cancel _ hd, if_pos (by omega)]

/-- `roundHalfEven` follows the order of the quotients. -/
theorem roundHalfEven_mono {n₁ d₁ n₂ d₂ : Nat} (h₁ : 0 < d₁) (h₂ : 0 < d₂) (h : n₁ * d₂ ≤ n₂ * d₁) :
    roundHalfEven n₁ d₁ ≤ roundHalfEven n₂ d₂ := by
  obtain ⟨-, b₁, -, e₁⟩ := roundHalfEven_spec n₁ h₁
  obtain ⟨a₂, -, e₂, -⟩ := roundHalfEven_spec n₂ h₂
  generalize roundHalfEven n₁ d₁ = r₁ at *
  generalize roundHalfEven n₂ d₂ = r₂ at *
  by_contra hlt
  have hr : r₂ + 1 ≤ r₁ := by omega
  have key₁ : 2 * (r₁ * d₁) * d₂ ≤ (2 * n₁ + d₁) * d₂ := Nat.mul_le_mul_right _ b₁
  have key₂ : 2 * n₂ * d₁ ≤ (2 * (r₂ * d₂) + d₂) * d₁ := Nat.mul_le_mul_right _ a₂
  have key₃ : (r₂ + 1) * (d₁ * d₂) ≤ r₁ * (d₁ * d₂) := Nat.mul_le_mul_right _ hr
  have t₁ : 2 * (r₁ * d₁) * d₂ = (2 * n₁ + d₁) * d₂ := by nlinarith
  have t₂ : 2 * n₂ * d₁ = (2 * (r₂ * d₂) + d₂) * d₁ := by nlinarith
  have q₁ := e₁ (Nat.eq_of_mul_eq_mul_right h₂ t₁)
  have q₂ := e₂ (Nat.eq_of_mul_eq_mul_right h₁ t₂)
  have hr' : r₁ * (d₁ * d₂) = (r₂ + 1) * (d₁ * d₂) := by nlinarith
  have := Nat.eq_of_mul_eq_mul_right (Nat.mul_pos h₁ h₂) hr'
  omega

/-! ### Rounding to binary64 -/

theorem roundShift_lt (q : Nat) : q < 2 ^ (53 + roundShift q) := by
  unfold roundShift
  split
  · simpa using ‹q < 2 ^ 53›
  · have h : 2 ^ 53 ≤ q := by omega
    have h53 : 53 ≤ Nat.log2 q := (Nat.le_log2 (by omega)).2 h
    rw [show 53 + (Nat.log2 q - 52) = Nat.log2 q + 1 by omega]
    exact Nat.lt_log2_self

theorem roundShift_le (q : Nat) : roundShift q = 0 ∨ 2 ^ (52 + roundShift q) ≤ q := by
  unfold roundShift
  split
  · exact .inl rfl
  · right
    have h : 2 ^ 53 ≤ q := by omega
    have h53 : 53 ≤ Nat.log2 q := (Nat.le_log2 (by omega)).2 h
    rw [show 52 + (Nat.log2 q - 52) = Nat.log2 q by omega]
    exact Nat.log2_self_le (by omega)

/-- The shift and significand a rounding ends with, before overflow is looked at. -/
theorem rounded_significand (num den : Nat) :
    let s := roundShift (num / den)
    let r := roundHalfEven num (den * 2 ^ s)
    r ≤ 2 ^ 53 ∧ (s = 0 ∨ 2 ^ 52 ≤ r) := by
  intro s r
  have hdiv : num / (den * 2 ^ s) = num / den / 2 ^ s := (Nat.div_div_eq_div_mul _ _ _).symm
  have hlt : num / den / 2 ^ s < 2 ^ 53 := by
    rw [Nat.div_lt_iff_lt_mul (by positivity), ← pow_add]
    exact roundShift_lt _
  have hle := roundHalfEven_le num (den * 2 ^ s)
  have hge := roundHalfEven_ge num (den * 2 ^ s)
  refine ⟨by omega, ?_⟩
  rcases roundShift_le (num / den) with h | h
  · exact .inl h
  · right
    have : 2 ^ 52 ≤ num / den / 2 ^ s := by
      rw [Nat.le_div_iff_mul_le (by positivity), ← pow_add]
      exact h
    omega

theorem roundMag_le (num den : Nat) : roundMag num den ≤ infMag := by
  unfold roundMag; exact min_le_right _ _

theorem roundMag_lt (num den : Nat) : roundMag num den < 2 ^ 63 := lt_of_le_of_lt (roundMag_le _ _) infMag_lt

/-- The value of a rounding that did not overflow: significand times 2 to the shift. -/
theorem unitsOfMag_roundMag {num den : Nat} (h : roundMag num den < infMag) :
    unitsOfMag (roundMag num den) =
      roundHalfEven num (den * 2 ^ roundShift (num / den)) * 2 ^ roundShift (num / den) := by
  have hm : roundMag num den =
      roundShift (num / den) * 2 ^ 52 + roundHalfEven num (den * 2 ^ roundShift (num / den)) := by
    unfold roundMag at h ⊢
    exact min_eq_left (by simp only at h ⊢; omega)
  obtain ⟨h1, h2⟩ := rounded_significand num den
  rw [hm, unitsOfMag_shift h1 h2]

theorem roundShift_mono {p q : Nat} (h : p ≤ q) : roundShift p ≤ roundShift q := by
  unfold roundShift
  split <;> split <;> try omega
  rename_i hp hq
  have : Nat.log2 p ≤ Nat.log2 q := (Nat.le_log2 (by omega)).2 (le_trans (Nat.log2_self_le (by omega)) h)
  omega

/-- Rounding follows the order of the exact results. -/
theorem roundMag_mono {n₁ d₁ n₂ d₂ : Nat} (h₁ : 0 < d₁) (h₂ : 0 < d₂) (h : n₁ * d₂ ≤ n₂ * d₁) :
    roundMag n₁ d₁ ≤ roundMag n₂ d₂ := by
  have hq : n₁ / d₁ ≤ n₂ / d₂ := by
    rw [Nat.le_div_iff_mul_le h₂]
    have := Nat.div_mul_le_self n₁ d₁
    have h3 : n₁ / d₁ * d₂ * d₁ ≤ n₂ * d₁ := by nlinarith
    exact Nat.le_of_mul_le_mul_right h3 h₁
  have hs := roundShift_mono hq
  obtain ⟨hr₁, -⟩ := rounded_significand n₁ d₁
  obtain ⟨-, hr₂⟩ := rounded_significand n₂ d₂
  unfold roundMag
  simp only at hr₁ hr₂ ⊢
  apply min_le_min_right
  rcases Nat.eq_or_lt_of_le hs with he | hlt
  · rw [he]
    apply Nat.add_le_add_left
    apply roundHalfEven_mono (by positivity) (by positivity)
    calc n₁ * (d₂ * 2 ^ roundShift (n₂ / d₂)) = n₁ * d₂ * 2 ^ roundShift (n₂ / d₂) := by ring
      _ ≤ n₂ * d₁ * 2 ^ roundShift (n₂ / d₂) := Nat.mul_le_mul_right _ h
      _ = n₂ * (d₁ * 2 ^ roundShift (n₂ / d₂)) := by ring
  · have h52 : 2 ^ 52 ≤ roundHalfEven n₂ (d₂ * 2 ^ roundShift (n₂ / d₂)) := by omega
    omega

/-- A representable value rounds to itself. -/
theorem roundMag_exact {mag den : Nat} (hd : 0 < den) (h : mag ≤ infMag) :
    roundMag (unitsOfMag mag * den) den = mag := by
  obtain ⟨s, m, rfl, hm, hs⟩ := mag_decompose mag
  rw [unitsOfMag_shift hm.le hs]
  have hq : m * 2 ^ s * den / den = m * 2 ^ s := Nat.mul_div_cancel _ hd
  have hshift : roundShift (m * 2 ^ s) = s := by
    rcases hs with rfl | h52
    · unfold roundShift; rw [if_pos (by simpa using hm)]
    · have hlt := roundShift_lt (m * 2 ^ s)
      have hle := roundShift_le (m * 2 ^ s)
      have hlo : 2 ^ (52 + s) ≤ m * 2 ^ s := by rw [pow_add]; exact Nat.mul_le_mul_right _ h52
      have hhi : m * 2 ^ s < 2 ^ (53 + s) := by
        rw [pow_add]; exact Nat.mul_lt_mul_of_pos_right hm (by positivity)
      have h1 : 52 + s < 53 + roundShift (m * 2 ^ s) :=
        (Nat.pow_lt_pow_iff_right (by decide)).1 (lt_of_le_of_lt hlo hlt)
      rcases hle with h0 | hle
      · omega
      · have h2 : 52 + roundShift (m * 2 ^ s) < 53 + s :=
          (Nat.pow_lt_pow_iff_right (by decide)).1 (lt_of_le_of_lt hle hhi)
        omega
  unfold roundMag
  simp only [hq, hshift]
  rw [show m * 2 ^ s * den = m * (den * 2 ^ s) by ring, roundHalfEven_mul m (by positivity)]
  exact min_eq_left h

theorem roundMag_exact_one {mag : Nat} (h : mag ≤ infMag) : roundMag (unitsOfMag mag) 1 = mag := by
  simpa using roundMag_exact (den := 1) (by decide) h

theorem roundMag_zero {den : Nat} (hd : 0 < den) : roundMag 0 den = 0 := by
  simpa [unitsOfMag_zero] using roundMag_exact (mag := 0) hd (by decide)

/-- An exact result no larger than a representable value rounds to no more than it. -/
theorem roundMag_le_of_le {num den mag : Nat} (hd : 0 < den) (hmag : mag ≤ infMag)
    (h : num ≤ unitsOfMag mag * den) : roundMag num den ≤ mag := by
  calc roundMag num den ≤ roundMag (unitsOfMag mag * den) den :=
        roundMag_mono hd hd (Nat.mul_le_mul_right _ h)
    _ = mag := roundMag_exact hd hmag

/-- An exact result no smaller than a representable value rounds to no less than it. -/
theorem le_roundMag_of_le {num den mag : Nat} (hd : 0 < den) (hmag : mag ≤ infMag)
    (h : unitsOfMag mag * den ≤ num) : mag ≤ roundMag num den := by
  calc mag = roundMag (unitsOfMag mag * den) den := (roundMag_exact hd hmag).symm
    _ ≤ roundMag num den := roundMag_mono hd hd (Nat.mul_le_mul_right _ h)

/-- A rounding that did not overflow is within half a unit in the last place of the exact result. -/
theorem roundMag_error {num den : Nat} (hd : 0 < den) (h : roundMag num den < infMag) :
    2 * num ≤ 2 * (unitsOfMag (roundMag num den) * den) + den * 2 ^ roundShift (num / den) ∧
    2 * (unitsOfMag (roundMag num den) * den) ≤ 2 * num + den * 2 ^ roundShift (num / den) := by
  obtain ⟨h1, h2, -, -⟩ := roundHalfEven_spec num
    (den := den * 2 ^ roundShift (num / den)) (by positivity)
  rw [unitsOfMag_roundMag h]
  constructor
  · calc 2 * num ≤ _ := h1
      _ = _ := by ring
  · calc _ = 2 * (roundHalfEven num (den * 2 ^ roundShift (num / den)) *
          (den * 2 ^ roundShift (num / den))) := by ring
      _ ≤ _ := h2

/-- The neighbours of a rounded magnitude: the next one up is at least one unit in the last place away; the next one down too, except
below a power of two, and there the exact result lies above the rounded one. -/
theorem roundMag_neighbours {num den : Nat} (h : roundMag num den < infMag) {z : Nat} :
    let s := roundShift (num / den)
    let r := roundHalfEven num (den * 2 ^ s)
    (roundMag num den < z → (r + 1) * 2 ^ s ≤ unitsOfMag z) ∧
    (z < roundMag num den → unitsOfMag z + 2 ^ s ≤ r * 2 ^ s ∨ r * 2 ^ s * den ≤ num) := by
  intro s r
  have hm : roundMag num den = s * 2 ^ 52 + r := by
    unfold roundMag at h ⊢
    exact min_eq_left (by simp only at h ⊢; omega)
  obtain ⟨h1, h2⟩ := rounded_significand num den
  change r ≤ 2 ^ 53 at h1
  change s = 0 ∨ 2 ^ 52 ≤ r at h2
  constructor
  · intro hz
    have hle : unitsOfMag (roundMag num den + 1) ≤ unitsOfMag z := unitsOfMag_strictMono.monotone hz
    refine le_trans ?_ hle
    rw [hm]
    rcases Nat.lt_or_ge r (2 ^ 53) with hr | hr
    · rw [add_assoc, unitsOfMag_shift (by omega) (by omega)]
    · have hr : r = 2 ^ 53 := by omega
      rw [show s * 2 ^ 52 + r + 1 = (s + 1) * 2 ^ 52 + (2 ^ 52 + 1) by omega,
        unitsOfMag_shift (by omega) (by omega)]
      calc (r + 1) * 2 ^ s ≤ ((2 ^ 52 + 1) * 2) * 2 ^ s := Nat.mul_le_mul_right _ (by omega)
        _ = (2 ^ 52 + 1) * 2 ^ (s + 1) := by rw [mul_assoc, ← pow_succ']
  · intro hz
    have hle : unitsOfMag z ≤ unitsOfMag (roundMag num den - 1) :=
      unitsOfMag_strictMono.monotone (by omega)
    rcases h2 with h0 | h52
    · left
      have e : roundMag num den - 1 = s * 2 ^ 52 + (r - 1) := by omega
      rw [e, unitsOfMag_shift (by omega) (.inl h0)] at hle
      rw [h0] at hle ⊢
      omega
    · rcases Nat.eq_or_lt_of_le h52 with he | hlt
      · rcases roundShift_le (num / den) with h0 | hq
        · left
          have h0 : s = 0 := h0
          have e : roundMag num den - 1 = s * 2 ^ 52 + (r - 1) := by omega
          rw [e, unitsOfMag_shift (by omega) (.inl h0)] at hle
          rw [h0] at hle ⊢
          omega
        · right
          rw [← he, ← pow_add]
          exact le_trans (Nat.mul_le_mul_right _ hq) (Nat.div_mul_le_self _ _)
      · left
        have e : roundMag num den - 1 = s * 2 ^ 52 + (r - 1) := by omega
        rw [e, unitsOfMag_shift (by omega) (.inr (by omega))] at hle
        have : r * 2 ^ s = (r - 1) * 2 ^ s + 2 ^ s := by
          rw [← Nat.succ_mul, Nat.succ_eq_add_one, Nat.sub_add_cancel (by omega)]
        omega

/-- A rounding that did not overflow is the nearest magnitude, the even one of two equally near. -/
theorem roundMag_nearest {num den : Nat} (hd : 0 < den) (h : roundMag num den < infMag) (z : Nat) :
    |(unitsOfMag (roundMag num den) : Int) * den - num| ≤ |(unitsOfMag z : Int) * den - num| ∧
    (|(unitsOfMag (roundMag num den) : Int) * den - num| = |(unitsOfMag z : Int) * den - num| →
      z ≠ roundMag num den → roundMag num den % 2 = 0) := by
  by_cases hzm : z = roundMag num den
  · subst hzm; exact ⟨le_rfl, fun _ hne => absurd rfl hne⟩
  obtain ⟨e1, e2, e3, e4⟩ := roundHalfEven_spec num
    (den := den * 2 ^ roundShift (num / den)) (by positivity)
  obtain ⟨n1, n2⟩ := roundMag_neighbours h (z := z)
  have hm : roundMag num den =
      roundShift (num / den) * 2 ^ 52 + roundHalfEven num (den * 2 ^ roundShift (num / den)) := by
    unfold roundMag at h ⊢
    exact min_eq_left (by simp only at h ⊢; omega)
  have hu := unitsOfMag_roundMag h
  generalize roundMag num den = m at *
  generalize roundShift (num / den) = s at *
  generalize hr : roundHalfEven num (den * 2 ^ s) = r at *
  have hrd : r * (den * 2 ^ s) = unitsOfMag m * den := by rw [hu]; ring
  rw [hrd] at e1 e2 e3 e4
  have hpos : 0 < den * 2 ^ s := by positivity
  generalize hD : den * 2 ^ s = D at *
  have heven : r % 2 = 0 → m % 2 = 0 := by omega
  have up : m < z → unitsOfMag m * den + D ≤ unitsOfMag z * den := by
    intro hz
    calc unitsOfMag m * den + D = (r + 1) * 2 ^ s * den := by rw [hu, ← hD]; ring
      _ ≤ _ := Nat.mul_le_mul_right _ (n1 hz)
  have down : z < m → unitsOfMag z * den + D ≤ unitsOfMag m * den ∨
      (unitsOfMag m * den ≤ num ∧ unitsOfMag z * den < unitsOfMag m * den) := by
    intro hz
    rcases n2 hz with hz' | hz'
    · left
      calc unitsOfMag z * den + D = (unitsOfMag z + 2 ^ s) * den := by rw [← hD]; ring
        _ ≤ r * 2 ^ s * den := Nat.mul_le_mul_right _ hz'
        _ = _ := by rw [hu]
    · right
      exact ⟨by rw [hu]; exact hz', Nat.mul_lt_mul_of_pos_right (unitsOfMag_strictMono hz) hd⟩
  rw [← Nat.cast_mul, ← Nat.cast_mul]
  generalize unitsOfMag m * den = a at *
  rcases Nat.lt_trichotomy z m with hz | hz | hz
  · rcases down hz with hz' | ⟨hz', hz''⟩
    · generalize unitsOfMag z * den = b at *
      constructor
      · rcases abs_cases ((a : Int) - num) with ⟨h, _⟩ | ⟨h, _⟩ <;>
          rcases abs_cases ((b : Int) - num) with ⟨h', _⟩ | ⟨h', _⟩ <;> omega
      · intro ht _
        rcases abs_cases ((a : Int) - num) with ⟨h, _⟩ | ⟨h, _⟩ <;>
          rcases abs_cases ((b : Int) - num) with ⟨h', _⟩ | ⟨h', _⟩ <;>
          first | exact heven (e3 (by omega)) | exact heven (e4 (by omega))
    · generalize unitsOfMag z * den = b at *
      constructor
      · rcases abs_cases ((a : Int) - num) with ⟨h, _⟩ | ⟨h, _⟩ <;>
          rcases abs_cases ((b : Int) - num) with ⟨h', _⟩ | ⟨h', _⟩ <;> omega
      · intro ht _
        rcases abs_cases ((a : Int) - num) with ⟨h, _⟩ | ⟨h, _⟩ <;>
          rcases abs_cases ((b : Int) - num) with ⟨h', _⟩ | ⟨h', _⟩ <;> omega
  · exact absurd hz hzm
  · have hz' := up hz
    generalize unitsOfMag z * den = b at *
    constructor
    · rcases abs_cases ((a : Int) - num) with ⟨h, _⟩ | ⟨h, _⟩ <;>
        rcases abs_cases ((b : Int) - num) with ⟨h', _⟩ | ⟨h', _⟩ <;> omega
    · intro ht _
      rcases abs_cases ((a : Int) - num) with ⟨h, _⟩ | ⟨h, _⟩ <;>
        rcases abs_cases ((b : Int) - num) with ⟨h', _⟩ | ⟨h', _⟩ <;>
        exact heven (e3 (by omega))

/-- A rounding overflows exactly from half a unit above the largest finite value on: 2^1024 - 2^970. -/
theorem roundMag_eq_infMag_iff {num den : Nat} (hd : 0 < den) :
    roundMag num den = infMag ↔ (2 ^ 54 - 1) * 2 ^ 2044 * den ≤ num := by
  constructor
  · intro h
    have hdiv : num < (num / den + 1) * den := by
      have := Nat.lt_div_mul_add (a := num) hd
      rw [Nat.add_mul, one_mul]; exact this
    rcases Nat.lt_or_ge (num / den) (2 ^ 2098) with hq | hq
    · have hs : roundShift (num / den) ≤ 2045 := by
        rcases roundShift_le (num / den) with h0 | h0
        · omega
        · have := (Nat.pow_lt_pow_iff_right (a := 2) (by decide)).1 (lt_of_le_of_lt h0 hq)
          omega
      obtain ⟨h1, -⟩ := rounded_significand num den
      obtain ⟨-, b, -, -⟩ := roundHalfEven_spec num
        (den := den * 2 ^ roundShift (num / den)) (by positivity)
      have hm : infMag ≤ roundShift (num / den) * 2 ^ 52 +
          roundHalfEven num (den * 2 ^ roundShift (num / den)) := by
        rw [← h]; unfold roundMag; exact min_le_left _ _
      have hi : infMag = 2047 * 2 ^ 52 := rfl
      have hs' : roundShift (num / den) = 2045 := by omega
      rw [hs'] at h1 b hm
      have hr : roundHalfEven num (den * 2 ^ 2045) = 2 ^ 53 := by omega
      rw [hr] at b
      have e1 : 2 * (2 ^ 53 * (den * 2 ^ 2045)) = 2 ^ 55 * (2 ^ 2044 * den) := by
        rw [show (2 : Nat) ^ 2045 = 2 ^ 2044 * 2 from pow_succ 2 2044]; ring
      have e2 : den * 2 ^ 2045 = 2 * (2 ^ 2044 * den) := by
        rw [show (2 : Nat) ^ 2045 = 2 ^ 2044 * 2 from pow_succ 2 2044]; ring
      rw [e1, e2] at b
      rw [mul_assoc]
      generalize 2 ^ 2044 * den = y at *
      omega
    · calc (2 ^ 54 - 1) * 2 ^ 2044 * den ≤ 2 ^ 2098 * den := by
            apply Nat.mul_le_mul_right
            rw [show (2 : Nat) ^ 2098 = 2 ^ 54 * 2 ^ 2044 from pow_add 2 54 2044]
            exact Nat.mul_le_mul_right _ (by decide)
        _ ≤ num / den * den := Nat.mul_le_mul_right _ hq
        _ ≤ num := Nat.div_mul_le_self _ _
  · intro h
    apply le_antisymm (roundMag_le _ _)
    have hmid : roundMag ((2 ^ 54 - 1) * 2 ^ 2044) 1 = infMag := by decide +kernel
    rw [← hmid]
    exact roundMag_mono (by decide) hd (by rw [Nat.mul_one]; exact h)

/-! ### Order and signs -/

/-- The order of the keys is the order of the values of finite operands (R12). -/
theorem fKey_le_iff (x y : F64) : fKey y ≤ fKey x ↔ units y ≤ units x := by
  have mono : ∀ a b : Nat, unitsOfMag a ≤ unitsOfMag b ↔ a ≤ b := fun a b => unitsOfMag_strictMono.le_iff_le
  have h1 := mono (fMag x) (fMag y)
  have h2 := mono (fMag y) (fMag x)
  have z1 := unitsOfMag_eq_zero (mag := fMag x)
  have z2 := unitsOfMag_eq_zero (mag := fMag y)
  unfold fKey units
  cases fSign x <;> cases fSign y <;> simp <;> omega

theorem units_pack (neg : Bool) {mag : Nat} (h : mag < 2 ^ 63) :
    units (pack neg mag) = if neg then -(unitsOfMag mag : Int) else unitsOfMag mag := by
  unfold units
  rw [fSign_pack neg h, fMag_pack neg h]

theorem natAbs_units (x : F64) : (units x).natAbs = unitsOfMag (fMag x) := by
  unfold units
  split <;> simp

/-- A rounding with a sign is the nearest value, the even one of two equally near. -/
theorem pack_roundMag_nearest {num den : Nat} (hd : 0 < den) (h : roundMag num den < infMag) (neg : Bool) (z : F64) :
    let e : Int := if neg then -num else num
    |units (pack neg (roundMag num den)) * den - e| ≤ |units z * den - e| ∧
    (|units (pack neg (roundMag num den)) * den - e| = |units z * den - e| →
      units z ≠ units (pack neg (roundMag num den)) → roundMag num den % 2 = 0) := by
  intro e
  obtain ⟨n1, n2⟩ := roundMag_nearest hd h (fMag z)
  have m0 : num = 0 → roundMag num den = 0 := fun h0 => by rw [h0]; exact roundMag_zero hd
  rw [units_pack _ (roundMag_lt _ _)]
  unfold units
  have zm : fMag z = roundMag num den → unitsOfMag (fMag z) = unitsOfMag (roundMag num den) := congrArg _
  have z0 : unitsOfMag (fMag z) = 0 → fMag z = 0 := unitsOfMag_eq_zero.1
  have mz : roundMag num den = 0 → unitsOfMag (roundMag num den) = 0 := unitsOfMag_eq_zero.2
  generalize roundMag num den = m at *
  have hzero : (unitsOfMag (fMag z) : Int) * den = 0 → unitsOfMag (fMag z) = 0 := fun h0 => by
    have := mul_eq_zero.1 h0
    omega
  have hb : (0 : Int) ≤ (unitsOfMag (fMag z) : Int) * den := by positivity
  have ha : (0 : Int) ≤ (unitsOfMag m : Int) * den := by positivity
  have same : ∀ t : Int, |-t * den - -num| = |t * den - num| := fun t => by
    rw [← abs_neg]; congr 1; ring
  have opp : |(unitsOfMag (fMag z) : Int) * den - num| ≤ |-(unitsOfMag (fMag z) : Int) * den - num| ∧
      (|(unitsOfMag (fMag z) : Int) * den - num| = |-(unitsOfMag (fMag z) : Int) * den - num| →
        unitsOfMag (fMag z) = 0 ∨ num = 0) := by
    rw [neg_mul]
    generalize (unitsOfMag (fMag z) : Int) * den = b at *
    constructor
    · rcases abs_cases (b - (num : Int)) with ⟨h1, _⟩ | ⟨h1, _⟩ <;>
        rcases abs_cases (-b - (num : Int)) with ⟨h2, _⟩ | ⟨h2, _⟩ <;> omega
    · intro he
      rcases abs_cases (b - (num : Int)) with ⟨h1, _⟩ | ⟨h1, _⟩ <;>
        rcases abs_cases (-b - (num : Int)) with ⟨h2, _⟩ | ⟨h2, _⟩ <;> omega
  have crossed : |(unitsOfMag m : Int) * den - num| = |-(unitsOfMag (fMag z) : Int) * den - num| →
      (unitsOfMag m ≠ 0 ∨ unitsOfMag (fMag z) ≠ 0) → m % 2 = 0 := fun he hne => by
    rcases opp.2 (le_antisymm opp.1 (he ▸ n1)) with h0 | h0
    · refine n2 (by rw [he, h0]; simp) fun hzm => ?_
      have := mz (by rw [← hzm]; exact z0 h0)
      omega
    · rw [m0 h0]
  cases neg <;> cases fSign z <;> simp only [e, Bool.false_eq_true, if_false, if_true]
  · exact ⟨n1, fun he hne => n2 he fun hzm => hne (by rw [zm hzm])⟩
  · exact ⟨n1.trans opp.1, fun he hne => crossed he (by omega)⟩
  · have o : |(unitsOfMag (fMag z) : Int) * den - -num| = |-(unitsOfMag (fMag z) : Int) * den - num| := by
      rw [← same, neg_neg]
    rw [same, o]
    exact ⟨n1.trans opp.1, fun he hne => crossed he (by omega)⟩
  · rw [same, same]
    exact ⟨n1, fun he hne => n2 he fun hzm => hne (by rw [zm hzm])⟩

/-! ### The operations, case by case -/

theorem isFinite_pack {neg : Bool} {mag : Nat} (h : mag < infMag) : isFinite (pack neg mag) = true := by
  rw [isFinite_iff, fMag_pack _ (h.trans infMag_lt)]; exact h

/-- The sum of finite operands is the exact sum rounded (R12). -/
theorem fadd_of_finite {x y : F64} (hx : isFinite x = true) (hy : isFinite y = true) :
    fadd x y = roundUnits (fSign x && fSign y) (units x + units y) := by
  unfold fadd
  rw [if_neg (by simp [isNaN_of_isFinite hx, isNaN_of_isFinite hy]), if_neg (by simp [isInf_of_isFinite hx]),
    if_neg (by simp [isInf_of_isFinite hy])]

/-- The difference of finite operands is the exact difference rounded (R12). -/
theorem fsub_of_finite {x y : F64} (hx : isFinite x = true) (hy : isFinite y = true) :
    fsub x y = roundUnits (fSign x && !fSign y) (units x - units y) := by
  unfold fsub
  rw [if_neg (by simp [isNaN_of_isFinite hx, isNaN_of_isFinite hy]), if_neg (by simp [isInf_of_isFinite hx]),
    if_neg (by simp [isInf_of_isFinite hy])]

/-- The product of finite operands is the exact product rounded (R12). -/
theorem fmul_of_finite {x y : F64} (hx : isFinite x = true) (hy : isFinite y = true) :
    fmul x y =
      pack (fSign x != fSign y) (roundMag (unitsOfMag (fMag x) * unitsOfMag (fMag y)) (2 ^ 1074)) := by
  unfold fmul
  rw [if_neg (by simp [isNaN_of_isFinite hx, isNaN_of_isFinite hy]),
    if_neg (by simp [isInf_of_isFinite hx, isInf_of_isFinite hy])]

/-- The quotient of finite operands, the second not zero, is the exact quotient rounded (R12). -/
theorem fdiv_of_finite {x y : F64} (hx : isFinite x = true) (hy : isFinite y = true) (hz : isZero y = false) :
    fdiv x y =
      pack (fSign x != fSign y) (roundMag (unitsOfMag (fMag x) * 2 ^ 1074) (unitsOfMag (fMag y))) := by
  unfold fdiv
  rw [if_neg (by simp [isNaN_of_isFinite hx, isNaN_of_isFinite hy]), if_neg (by simp [isInf_of_isFinite hx]),
    if_neg (by simp [isInf_of_isFinite hy]), if_neg (by simp [hz])]

theorem isNaN_fadd {x y : F64} (h : isNaN x = true ∨ isNaN y = true) : isNaN (fadd x y) = true := by
  unfold fadd; rw [if_pos (by simpa using h)]; exact isNaN_quietNaN _ _ _

theorem isNaN_fmul {x y : F64} (h : isNaN x = true ∨ isNaN y = true) : isNaN (fmul x y) = true := by
  unfold fmul; rw [if_pos (by simpa using h)]; exact isNaN_quietNaN _ _ _

/-- A whole number of units that rounds below infinity rounds to the value of its rounded magnitude. -/
theorem units_roundUnits_natCast (zeroSign : Bool) {n : Nat} (h : roundMag n 1 < infMag) :
    isFinite (roundUnits zeroSign n) = true ∧ units (roundUnits zeroSign n) = (unitsOfMag (roundMag n 1) : Int) := by
  unfold roundUnits
  by_cases h0 : n = 0
  · subst h0
    rw [Nat.cast_zero, if_pos rfl, roundMag_zero (by decide)]
    cases zeroSign <;> decide +kernel
  · rw [if_neg (by omega), Int.natAbs_natCast, units_pack _ (roundMag_lt _ _)]
    exact ⟨isFinite_pack h, by rw [if_neg (by simp)]⟩

/-- `i2f` of a number of up to 53 bits is exact (R12). -/
theorem i2f_natCast {n : Nat} (h : n ≤ 2 ^ 53) :
    ∃ mag, i2f n = pack false mag ∧ mag < infMag ∧ unitsOfMag mag = n * 2 ^ 1074 := by
  obtain ⟨mag, hmag⟩ := exists_mag_of_shift (j := n) 1074 h
  have hlt : mag < infMag := by
    rw [← unitsOfMag_strictMono.lt_iff_lt, hmag]
    refine lt_of_le_of_lt (Nat.mul_le_mul_right _ h) ?_
    decide +kernel
  refine ⟨mag, ?_, hlt, hmag⟩
  unfold i2f
  rw [Int.natAbs_natCast, ← hmag, roundMag_exact_one hlt.le, decide_eq_false (by omega)]

end Sys2Proof.Machine
end

