-- ==== Sys2Proof/Laws/Decode.lean ====
section
/-! SUPPORT. A command word is its six fields; each row of the opcode map is a condition on the fields (30_encoding.md R62, R64). -/

namespace Sys2Proof

/-- The six fields joined, most significant first (R61). -/
def joinCW (opc : BitVec 8) (rsv : BitVec 20) (flg : BitVec 4) (a b c : Word32) : CmdWord :=
  opc ++ rsv ++ flg ++ a ++ b ++ c

section Join
variable (opc : BitVec 8) (rsv : BitVec 20) (flg : BitVec 4) (a b c : Word32)

theorem packCW_eq_join : packCW opc flg a b c = joinCW opc 0#20 flg a b c := rfl

@[simp] theorem opc_join : (joinCW opc rsv flg a b c).opc = opc := by
  apply BitVec.eq_of_getLsbD_eq
  intro i hi
  simp only [CmdWord.opc, joinCW, BitVec.getLsbD_extractLsb', BitVec.getLsbD_append]
  interval_cases i <;> simp

@[simp] theorem rsv_join : (joinCW opc rsv flg a b c).rsv = rsv := by
  apply BitVec.eq_of_getLsbD_eq
  intro i hi
  simp only [CmdWord.rsv, joinCW, BitVec.getLsbD_extractLsb', BitVec.getLsbD_append]
  interval_cases i <;> simp

@[simp] theorem flg_join : (joinCW opc rsv flg a b c).flg = flg := by
  apply BitVec.eq_of_getLsbD_eq
  intro i hi
  simp only [CmdWord.flg, joinCW, BitVec.getLsbD_extractLsb', BitVec.getLsbD_append]
  interval_cases i <;> simp

@[simp] theorem a_join : (joinCW opc rsv flg a b c).a = a := by
  apply BitVec.eq_of_getLsbD_eq
  intro i hi
  simp only [CmdWord.a, joinCW, BitVec.getLsbD_extractLsb', BitVec.getLsbD_append]
  interval_cases i <;> simp

@[simp] theorem b_join : (joinCW opc rsv flg a b c).b = b := by
  apply BitVec.eq_of_getLsbD_eq
  intro i hi
  simp only [CmdWord.b, joinCW, BitVec.getLsbD_extractLsb', BitVec.getLsbD_append]
  interval_cases i <;> simp

@[simp] theorem c_join : (joinCW opc rsv flg a b c).c = c := by
  apply BitVec.eq_of_getLsbD_eq
  intro i hi
  simp only [CmdWord.c, joinCW, BitVec.getLsbD_extractLsb', BitVec.getLsbD_append]
  interval_cases i <;> simp

end Join

/-- A word is its fields. -/
theorem join_fields (w : CmdWord) : joinCW w.opc w.rsv w.flg w.a w.b w.c = w := by
  unfold joinCW CmdWord.opc CmdWord.rsv CmdWord.flg CmdWord.a CmdWord.b CmdWord.c
  rw [BitVec.extractLsb'_append_extractLsb'_eq_extractLsb' (by decide),
    BitVec.extractLsb'_append_extractLsb'_eq_extractLsb' (by decide),
    BitVec.extractLsb'_append_extractLsb'_eq_extractLsb' (by decide),
    BitVec.extractLsb'_append_extractLsb'_eq_extractLsb' (by decide),
    BitVec.extractLsb'_append_extractLsb'_eq_extractLsb' (by decide)]
  exact BitVec.extractLsb'_eq_self

/-- Two words are equal when their fields are. -/
theorem join_inj {opc opc' : BitVec 8} {rsv rsv' : BitVec 20} {flg flg' : BitVec 4} {a b c a' b' c' : Word32} :
    joinCW opc rsv flg a b c = joinCW opc' rsv' flg' a' b' c' ↔
      opc = opc' ∧ rsv = rsv' ∧ flg = flg' ∧ a = a' ∧ b = b' ∧ c = c' := by
  constructor
  · intro h
    have h1 := congrArg CmdWord.opc h
    have h2 := congrArg CmdWord.rsv h
    have h3 := congrArg CmdWord.flg h
    have h4 := congrArg CmdWord.a h
    have h5 := congrArg CmdWord.b h
    have h6 := congrArg CmdWord.c h
    simp only [opc_join, rsv_join, flg_join, a_join, b_join, c_join] at h1 h2 h3 h4 h5 h6
    exact ⟨h1, h2, h3, h4, h5, h6⟩
  · rintro ⟨rfl, rfl, rfl, rfl, rfl, rfl⟩; rfl

theorem join_and (opc opc' : BitVec 8) (rsv rsv' : BitVec 20) (flg flg' : BitVec 4) (a b c a' b' c' : Word32) :
    joinCW opc rsv flg a b c &&& joinCW opc' rsv' flg' a' b' c' =
      joinCW (opc &&& opc') (rsv &&& rsv') (flg &&& flg') (a &&& a') (b &&& b') (c &&& c') := by
  unfold joinCW
  change ((opc ++ rsv ++ flg ++ a ++ b ++ c : BitVec (8 + 20 + 4 + 32 + 32 + 32)) &&&
    (opc' ++ rsv' ++ flg' ++ a' ++ b' ++ c' : BitVec (8 + 20 + 4 + 32 + 32 + 32))) = _
  rw [BitVec.and_append, BitVec.and_append, BitVec.and_append, BitVec.and_append, BitVec.and_append]

/-- A row hits a word when each field, masked, is the row's field. -/
theorem hits_iff_fields (w : CmdWord) {opc mopc : BitVec 8} {rsv mrsv : BitVec 20} {flg mflg : BitVec 4}
    {a b c ma mb mc : Word32} :
    OpcodeRow.hits ⟨joinCW opc rsv flg a b c, joinCW mopc mrsv mflg ma mb mc⟩ w = true ↔
      w.opc &&& mopc = opc ∧ w.rsv &&& mrsv = rsv ∧ w.flg &&& mflg = flg ∧
        w.a &&& ma = a ∧ w.b &&& mb = b ∧ w.c &&& mc = c := by
  unfold OpcodeRow.hits
  conv => lhs; rw [← join_fields w]
  rw [beq_iff_eq, join_and, join_inj]

theorem and_ones8 (x : BitVec 8) : x &&& 0xFF#8 = x := BitVec.and_allOnes
theorem and_ones20 (x : BitVec 20) : x &&& 0xFFFFF#20 = x := BitVec.and_allOnes
theorem and_ones4 (x : BitVec 4) : x &&& 0xF#4 = x := BitVec.and_allOnes
theorem and_ones32 (x : Word32) : x &&& 0xFFFFFFFF#32 = x := BitVec.and_allOnes

theorem rowInit_fields : rowInit = ⟨joinCW 1#8 0#20 0#4 0#32 0#32 0#32,
    joinCW 0xFF#8 0xFFFFF#20 0xF#4 0#32 0xFFFFFFFF#32 0xFFFFFFFF#32⟩ := by decide
theorem rowTeardown_fields : rowTeardown = ⟨joinCW 2#8 0#20 0#4 0#32 0#32 0#32,
    joinCW 0xFF#8 0xFFFFF#20 0xF#4 0xFFFFFFFF#32 0xFFFFFFFF#32 0xFFFFFFFF#32⟩ := by decide
theorem rowSetTx_fields : rowSetTx = ⟨joinCW 3#8 0#20 0#4 0#32 0#32 0#32,
    joinCW 0xFF#8 0xFFFFF#20 0xE#4 0xFFFFFFFF#32 0xFFFFFFFF#32 0xFFFFFFFF#32⟩ := by decide
theorem rowRegProv_fields : rowRegProv = ⟨joinCW 4#8 0#20 0#4 0#32 0#32 0#32,
    joinCW 0xFF#8 0xFFFFF#20 0x8#4 0xFFFFFFFF#32 0xFFFFFFFF#32 0xFFFFFFFF#32⟩ := by decide
theorem rowGenerate_fields : rowGenerate = ⟨joinCW 5#8 0#20 0#4 0#32 0#32 0#32,
    joinCW 0xFF#8 0xFFFFF#20 0xE#4 0#32 0#32 0#32⟩ := by decide
theorem rowIsActive_fields : rowIsActive = ⟨joinCW 6#8 0#20 0#4 0#32 0#32 0#32,
    joinCW 0xFF#8 0xFFFFF#20 0xF#4 0xFFFFFFFF#32 0xFFFFFFFF#32 0xFFFFFFFF#32⟩ := by decide

section Rows
variable (w : CmdWord)

/-- `INIT`: `RSV`, `FLG`, `B` and `C` are zero (R62). -/
theorem rowInit_hits : rowInit.hits w = true ↔
    w.opc = 1#8 ∧ w.rsv = 0#20 ∧ w.flg = 0#4 ∧ w.b = 0#32 ∧ w.c = 0#32 := by
  rw [rowInit_fields, hits_iff_fields, and_ones8, and_ones20, and_ones4, and_ones32, and_ones32]
  simp

/-- `TEARDOWN`: everything but `OPC` is zero (R62). -/
theorem rowTeardown_hits : rowTeardown.hits w = true ↔
    w.opc = 2#8 ∧ w.rsv = 0#20 ∧ w.flg = 0#4 ∧ w.a = 0#32 ∧ w.b = 0#32 ∧ w.c = 0#32 := by
  rw [rowTeardown_fields, hits_iff_fields, and_ones8, and_ones20, and_ones4, and_ones32, and_ones32, and_ones32]

/-- `SET_TX`: `FLG[3:1]`, `RSV`, `A`, `B`, `C` are zero (R62). -/
theorem rowSetTx_hits : rowSetTx.hits w = true ↔
    w.opc = 3#8 ∧ w.rsv = 0#20 ∧ w.flg &&& 0xE#4 = 0#4 ∧ w.a = 0#32 ∧ w.b = 0#32 ∧ w.c = 0#32 := by
  rw [rowSetTx_fields, hits_iff_fields, and_ones8, and_ones20, and_ones32, and_ones32, and_ones32]

/-- `REG_PROV`: `FLG[3]`, `RSV`, `A`, `B`, `C` are zero (R62). -/
theorem rowRegProv_hits : rowRegProv.hits w = true ↔
    w.opc = 4#8 ∧ w.rsv = 0#20 ∧ w.flg &&& 0x8#4 = 0#4 ∧ w.a = 0#32 ∧ w.b = 0#32 ∧ w.c = 0#32 := by
  rw [rowRegProv_fields, hits_iff_fields, and_ones8, and_ones20, and_ones32, and_ones32, and_ones32]

/-- `GENERATE`: `FLG[3:1]` and `RSV` are zero (R62). -/
theorem rowGenerate_hits : rowGenerate.hits w = true ↔
    w.opc = 5#8 ∧ w.rsv = 0#20 ∧ w.flg &&& 0xE#4 = 0#4 := by
  rw [rowGenerate_fields, hits_iff_fields, and_ones8, and_ones20]
  simp

/-- `IS_ACTIVE`: everything but `OPC` is zero (R62). -/
theorem rowIsActive_hits : rowIsActive.hits w = true ↔
    w.opc = 6#8 ∧ w.rsv = 0#20 ∧ w.flg = 0#4 ∧ w.a = 0#32 ∧ w.b = 0#32 ∧ w.c = 0#32 := by
  rw [rowIsActive_fields, hits_iff_fields, and_ones8, and_ones20, and_ones4, and_ones32, and_ones32, and_ones32]

end Rows

/-- A word is reserved exactly when no row of the opcode map hits it (R65, R70). -/
theorem decode_error_iff (w : CmdWord) :
    (∃ e, decode w = .error e) ↔ ∀ r ∈ opcodeRows, ¬r.hits w = true := by
  unfold decode
  constructor
  · rintro ⟨e, h⟩
    split at h; · simp at h
    split at h; · simp at h
    split at h; · simp at h
    split at h; · simp at h
    split at h; · simp at h
    split at h; · simp at h
    simp [opcodeRows, *]
  · intro h
    simp only [opcodeRows, List.mem_cons, List.not_mem_nil, or_false] at h
    rw [if_neg (h _ (by simp)), if_neg (h _ (by simp)), if_neg (h _ (by simp)), if_neg (h _ (by simp)),
      if_neg (h _ (by simp)), if_neg (h _ (by simp))]
    exact ⟨_, rfl⟩

theorem wellFormed_init {n : Int} : WellFormed (.init n) ↔ InS32 n := by
  unfold WellFormed Instr.wellFormed
  exact decide_eq_true_iff

theorem wellFormed_generate {v : Bool} {b : WordIndex} {n r : Int} :
    WellFormed (.generate v b n r) ↔ InS32 n ∧ InS32 r := by
  unfold WellFormed Instr.wellFormed
  rw [Bool.and_eq_true, decide_eq_true_iff, decide_eq_true_iff]

/-- The flag operands are bits of `FLG` (R61, R62). -/
theorem getLsbD_flg (w : CmdWord) {k : Nat} (hk : k < 4) : w.getLsbD (96 + k) = w.flg.getLsbD k := by
  simp [CmdWord.flg, hk]

/-- A signed operand in range survives its field (R63). -/
theorem s32_field32 {n : Int} (h : InS32 n) : s32 (field32 n) = n := by
  unfold s32 field32
  exact BitVec.toInt_ofInt_eq_self (by decide) h.1 h.2

/-- A field survives being read as a signed integer (R63). -/
theorem field32_s32 (v : Word32) : field32 (s32 v) = v := BitVec.ofInt_toInt

theorem inS32_s32 (v : Word32) : InS32 (s32 v) := ⟨BitVec.le_toInt v, BitVec.toInt_lt⟩

end Sys2Proof
end

