-- ==== Sys2Proof/Laws/State.lean ====
section
/-! SUPPORT. One lemma per field and update of State: what performing port actions, committing an effect, `rst` and a cut by `rst` leave
in each field. -/

namespace Sys2Proof.Machine

section Perform
variable (s : State) (actions : List PortAction)

@[simp] theorem perform_regs : (s.perform actions).regs = s.regs := rfl
@[simp] theorem perform_ports : (s.perform actions).ports = s.ports := rfl
@[simp] theorem perform_allocOk : (s.perform actions).allocOk = s.allocOk := rfl
@[simp] theorem perform_pending : (s.perform actions).pending = s.pending := rfl
@[simp] theorem perform_out : (s.perform actions).out = Memory.actAll s.out actions := rfl
@[simp] theorem perform_trace : (s.perform actions).trace = s.trace ++ actions := rfl

end Perform

section Commit
variable (s : State) (e : Effect)

@[simp] theorem commit_regs : (s.commit e).regs = e.regs := rfl
@[simp] theorem commit_ports : (s.commit e).ports = s.ports := rfl
@[simp] theorem commit_allocOk : (s.commit e).allocOk = s.allocOk := rfl
@[simp] theorem commit_pending : (s.commit e).pending = s.pending := rfl
@[simp] theorem commit_out : (s.commit e).out = Memory.actAll s.out e.actions := rfl
@[simp] theorem commit_trace : (s.commit e).trace = s.trace ++ e.actions := rfl

/-- A command with no port actions changes `S` alone. -/
theorem commit_quiet (r : Regs) : s.commit { regs := r, actions := [] } = { s with regs := r } := by
  simp [State.commit, State.perform, Memory.actAll]

end Commit

section Rst
variable (s : State) (e : Effect) (done : Nat)

@[simp] theorem assertRst_regs : s.assertRst.regs = Regs.reset := rfl
@[simp] theorem assertRst_ports : s.assertRst.ports = s.ports := rfl
@[simp] theorem assertRst_allocOk : s.assertRst.allocOk = s.allocOk := rfl
@[simp] theorem assertRst_pending : s.assertRst.pending = s.pending := rfl
@[simp] theorem assertRst_out : s.assertRst.out = s.out := rfl
@[simp] theorem assertRst_trace : s.assertRst.trace = s.trace := rfl

@[simp] theorem cutByRst_regs : (s.cutByRst e done).regs = Regs.reset := rfl
@[simp] theorem cutByRst_ports : (s.cutByRst e done).ports = s.ports := rfl
@[simp] theorem cutByRst_allocOk : (s.cutByRst e done).allocOk = s.allocOk := rfl
@[simp] theorem cutByRst_pending : (s.cutByRst e done).pending = s.pending := rfl
@[simp] theorem cutByRst_out :
    (s.cutByRst e done).out = Memory.actAll s.out (e.actions.take done) := rfl
@[simp] theorem cutByRst_trace : (s.cutByRst e done).trace = s.trace ++ e.actions.take done := rfl

end Rst

section Actions

@[simp] theorem actAll_nil (m : Memory) : Memory.actAll m [] = m := rfl
@[simp] theorem actAll_cons (m : Memory) (a : PortAction) (l : List PortAction) :
    Memory.actAll m (a :: l) = Memory.actAll (Memory.act m a) l := rfl
theorem actAll_append (m : Memory) (k l : List PortAction) :
    Memory.actAll m (k ++ l) = Memory.actAll (Memory.actAll m k) l := by
  simp [Memory.actAll, List.foldl_append]

@[simp] theorem act_sample (m : Memory) (p : PortSample) : Memory.act m (.sample p) = m := rfl
@[simp] theorem act_respond (m : Memory) (b : Bool) : Memory.act m (.respond b) = m := rfl
@[simp] theorem act_write (m : Memory) (w : WordIndex) (v : F64) :
    Memory.act m (.write w v) = Memory.writeWord m w v := rfl

@[simp] theorem writesOf_nil : writesOf [] = [] := rfl
@[simp] theorem writesOf_sample (p : PortSample) (l : List PortAction) :
    writesOf (.sample p :: l) = writesOf l := rfl
@[simp] theorem writesOf_respond (b : Bool) (l : List PortAction) :
    writesOf (.respond b :: l) = writesOf l := rfl
@[simp] theorem writesOf_write (w : WordIndex) (v : F64) (l : List PortAction) :
    writesOf (.write w v :: l) = (w, v) :: writesOf l := rfl
theorem writesOf_append (k l : List PortAction) : writesOf (k ++ l) = writesOf k ++ writesOf l := by
  simp [writesOf, List.filterMap_append]

theorem responsesOf_append (k l : List PortAction) :
    responsesOf (k ++ l) = responsesOf k ++ responsesOf l := by
  simp [responsesOf, List.filterMap_append]
theorem samplesOf_append (k l : List PortAction) : samplesOf (k ++ l) = samplesOf k ++ samplesOf l := by
  simp [samplesOf, List.filterMap_append]

/-- `OUT` sees the output writes of a list of port actions and nothing else of it. -/
theorem actAll_eq_writes (m : Memory) (l : List PortAction) :
    Memory.actAll m l = (writesOf l).foldl (fun m p => Memory.writeWord m p.1 p.2) m := by
  induction l generalizing m with
  | nil => rfl
  | cons a l ih => cases a <;> simp [ih]

end Actions

end Sys2Proof.Machine
end

