-- ==== Sys2Proof/Laws/Generate.lean ====
section
/-! SUPPORT. GENERATE said once: what a frame leaves in each field, the loop as an iterate of the frame, its port actions as a list over
the frame numbers, and the word indices it writes. -/

namespace Sys2Proof.Machine

/-! ### One frame -/

section Frame
variable (delta : F64) (r : Regs)

@[simp] theorem envelopeNext_phase : (envelopeNext r).phase = r.phase := by
  unfold envelopeNext; split <;> rfl
@[simp] theorem envelopeNext_transmitActive : (envelopeNext r).transmitActive = r.transmitActive := by
  unfold envelopeNext; split <;> rfl
@[simp] theorem envelopeNext_init : (envelopeNext r).init = r.init := by
  unfold envelopeNext; split <;> rfl
@[simp] theorem envelopeNext_provEn : (envelopeNext r).provEn = r.provEn := by
  unfold envelopeNext; split <;> rfl
@[simp] theorem envelopeNext_provFreq : (envelopeNext r).provFreq = r.provFreq := by
  unfold envelopeNext; split <;> rfl
@[simp] theorem envelopeNext_provVol : (envelopeNext r).provVol = r.provVol := by
  unfold envelopeNext; split <;> rfl
@[simp] theorem envelopeNext_blockSize : (envelopeNext r).blockSize = r.blockSize := by
  unfold envelopeNext; split <;> rfl

@[simp] theorem frameNext_phase : (frameNext delta r).phase = phaseStep delta r.phase := rfl
@[simp] theorem frameNext_envelopeState :
    (frameNext delta r).envelopeState = (envelopeNext r).envelopeState := rfl
@[simp] theorem frameNext_envelopeCounter :
    (frameNext delta r).envelopeCounter = (envelopeNext r).envelopeCounter := rfl
@[simp] theorem frameNext_transmitActive : (frameNext delta r).transmitActive = r.transmitActive :=
  envelopeNext_transmitActive r
@[simp] theorem frameNext_init : (frameNext delta r).init = r.init := envelopeNext_init r
@[simp] theorem frameNext_provEn : (frameNext delta r).provEn = r.provEn := envelopeNext_provEn r
@[simp] theorem frameNext_provFreq : (frameNext delta r).provFreq = r.provFreq := envelopeNext_provFreq r
@[simp] theorem frameNext_provVol : (frameNext delta r).provVol = r.provVol := envelopeNext_provVol r
@[simp] theorem frameNext_blockSize : (frameNext delta r).blockSize = r.blockSize := envelopeNext_blockSize r

end Frame

/-! ### Several frames -/

section Frames
variable (delta : F64) (r : Regs) (k : Nat)

/-- The phase runs on its own: `k` frames apply `PhaseStep` `k` times (R111, R114). -/
theorem iterate_phase : ((frameNext delta)^[k] r).phase = (phaseStep delta)^[k] r.phase := by
  induction k generalizing r with
  | zero => rfl
  | succ k ih => rw [Function.iterate_succ_apply, Function.iterate_succ_apply, ih, frameNext_phase]

/-- The fields GENERATE never writes (R100). -/
theorem iterate_frame :
    ((frameNext delta)^[k] r).transmitActive = r.transmitActive ∧ ((frameNext delta)^[k] r).init = r.init ∧
    ((frameNext delta)^[k] r).provEn = r.provEn ∧ ((frameNext delta)^[k] r).provFreq = r.provFreq ∧
    ((frameNext delta)^[k] r).provVol = r.provVol ∧ ((frameNext delta)^[k] r).blockSize = r.blockSize := by
  induction k generalizing r with
  | zero => exact ⟨rfl, rfl, rfl, rfl, rfl, rfl⟩
  | succ k ih => rw [Function.iterate_succ_apply]; simpa using ih (frameNext delta r)

end Frames

theorem toneFrames_regs (sin : F64 → F64) (delta vol : F64) (outBase : WordIndex) (turns i : Nat) (r : Regs) :
    (toneFrames sin delta vol outBase turns i r).regs = (frameNext delta)^[turns] r := by
  induction turns generalizing i r with
  | zero => rfl
  | succ n ih => rw [Function.iterate_succ_apply]; exact ih (i + 1) (frameNext delta r)

theorem toneFrames_actions (sin : F64 → F64) (delta vol : F64) (outBase : WordIndex) (turns i : Nat) (r : Regs) :
    (toneFrames sin delta vol outBase turns i r).actions =
      (List.range turns).flatMap fun k =>
        framePair outBase (i + k) (frameSample sin vol ((frameNext delta)^[k] r)) := by
  induction turns generalizing i r with
  | zero => rfl
  | succ n ih =>
    rw [List.range_succ_eq_map, List.flatMap_cons, List.flatMap_map]
    change framePair outBase i (frameSample sin vol r) ++
      (toneFrames sin delta vol outBase n (i + 1) (frameNext delta r)).actions = _
    rw [ih]
    simp only [Nat.add_zero, Function.iterate_zero, id, Function.iterate_succ_apply, Nat.succ_eq_add_one]
    congr 2
    funext k
    rw [show i + 1 + k = i + (k + 1) by omega]

theorem silentFrames_actions (outBase : WordIndex) (turns i : Nat) :
    silentFrames outBase turns i = (List.range turns).flatMap fun k => framePair outBase (i + k) fZero := by
  induction turns generalizing i with
  | zero => rfl
  | succ n ih =>
    rw [List.range_succ_eq_map, List.flatMap_cons, List.flatMap_map]
    change framePair outBase i fZero ++ silentFrames outBase n (i + 1) = _
    rw [ih]
    simp only [Nat.add_zero, Nat.succ_eq_add_one]
    congr 2
    funext k
    rw [show i + 1 + k = i + (k + 1) by omega]

/-! ### The output writes -/

theorem writesOf_framePair (outBase : WordIndex) (i : Nat) (x : F64) :
    writesOf (framePair outBase i x) =
      [(sampleIndex outBase (2 * i), x), (sampleIndex outBase (2 * i + 1), x)] := rfl

/-- The output writes of a sequence of frames, frame by frame. -/
theorem writesOf_frames (outBase : WordIndex) (turns : Nat) (x : Nat → F64) :
    writesOf ((List.range turns).flatMap fun k => framePair outBase k (x k)) =
      (List.range turns).flatMap fun k =>
        [(sampleIndex outBase (2 * k), x k), (sampleIndex outBase (2 * k + 1), x k)] := by
  induction turns with
  | zero => rfl
  | succ n ih =>
    rw [List.range_succ, List.flatMap_append, List.flatMap_append, writesOf_append, ih]
    simp [writesOf_framePair]

/-- The word indices written ascend from `out_base` (R43, R51). -/
theorem writeIndices_frames (outBase : WordIndex) (turns : Nat) (x : Nat → F64) :
    (writesOf ((List.range turns).flatMap fun k => framePair outBase k (x k))).map Prod.fst =
      (List.range (2 * turns)).map (sampleIndex outBase) := by
  rw [writesOf_frames]
  induction turns with
  | zero => rfl
  | succ n ih =>
    rw [List.range_succ, List.flatMap_append, List.map_append, ih, show 2 * (n + 1) = 2 * n + 1 + 1 by omega,
      List.range_succ, List.range_succ]
    simp

/-- Frames respond nothing and sample nothing (R69, R103). -/
theorem quiet_frames (outBase : WordIndex) (turns : Nat) (x : Nat → F64) :
    responsesOf ((List.range turns).flatMap fun k => framePair outBase k (x k)) = [] ∧
    samplesOf ((List.range turns).flatMap fun k => framePair outBase k (x k)) = [] := by
  induction turns with
  | zero => exact ⟨rfl, rfl⟩
  | succ n ih =>
    rw [List.range_succ, List.flatMap_append, responsesOf_append, samplesOf_append, ih.1, ih.2]
    exact ⟨rfl, rfl⟩

theorem sampleIndex_toNat (outBase : WordIndex) {j : Nat} (hj : j < 2 ^ 32) :
    (sampleIndex outBase j).toNat = (outBase.toNat + j) % 2 ^ 32 := by
  unfold sampleIndex
  rw [BitVec.toNat_add, BitVec.toNat_ofNat, Nat.mod_eq_of_lt hj]

/-- Offsets below 2^32 give different words (R43). -/
theorem sampleIndex_inj (outBase : WordIndex) {j k : Nat} (hj : j < 2 ^ 32) (hk : k < 2 ^ 32)
    (h : sampleIndex outBase j = sampleIndex outBase k) : j = k := by
  have := congrArg BitVec.toNat h
  rw [sampleIndex_toNat outBase hj, sampleIndex_toNat outBase hk] at this
  have := outBase.isLt
  omega

/-- The frames of a well-formed command are few enough that no two writes meet (R43, R104). -/
theorem frameTurns_lt {n : Int} (h : InS32 n) : frameTurns n < 2 ^ 31 := by
  unfold frameTurns
  have := h.2
  omega

/-- The word indices of fewer than 2^31 frames are all different (R43). -/
theorem sampleIndex_nodup (outBase : WordIndex) {turns : Nat} (h : turns < 2 ^ 31) :
    ((List.range (2 * turns)).map (sampleIndex outBase)).Nodup := by
  apply List.nodup_range.map_on
  intro j hj k hk e
  rw [List.mem_range] at hj hk
  exact sampleIndex_inj outBase (by omega) (by omega) e

theorem sampleIndex_add (outBase : WordIndex) (j k : Nat) :
    sampleIndex (outBase + BitVec.ofNat 32 j) k = sampleIndex outBase (j + k) := by
  unfold sampleIndex
  rw [BitVec.add_assoc, ← BitVec.ofNat_add]

/-! ### The effect of GENERATE, path by path (R100, R143) -/

section Effect
variable {sin : F64 → F64} {v : Bool} {outBase : WordIndex} {frameCount sampleRate : Int} {p : Ports} {r : Regs}

theorem generateEffect_noOp (h : noOpGuard v r = true) :
    generateEffect sin v outBase frameCount sampleRate p r = { regs := r, actions := [] } := by
  unfold generateEffect; rw [if_pos h]

theorem generateEffect_silence (h₁ : noOpGuard v r = false) (h₂ : silenceGuard r = true) :
    generateEffect sin v outBase frameCount sampleRate p r =
      { regs := r
        actions := (List.range (frameTurns frameCount)).flatMap fun k => framePair outBase k fZero } := by
  unfold generateEffect
  rw [if_neg (by simp [h₁]), if_pos h₂, silentFrames_actions]
  simp only [Nat.zero_add]

theorem generateEffect_tone (h₁ : noOpGuard v r = false) (h₂ : silenceGuard r = false) :
    generateEffect sin v outBase frameCount sampleRate p r =
      { regs := (frameNext (phaseIncrement (sampledFreq p) sampleRate))^[frameTurns frameCount] r
        actions := [.sample (.freq p.pFreq), .sample (.vol p.pVol)] ++
          (List.range (frameTurns frameCount)).flatMap fun k =>
            framePair outBase k (frameSample sin p.pVol
              ((frameNext (phaseIncrement (sampledFreq p) sampleRate))^[k] r)) } := by
  unfold generateEffect
  rw [if_neg (by simp [h₁]), if_neg (by simp [h₂])]
  simp only [toneFrames_regs, toneFrames_actions, Nat.zero_add]

/-- What GENERATE can do: the no-op, or frames after the samples of the path taken. -/
theorem generateEffect_cases (sin : F64 → F64) (v : Bool) (outBase : WordIndex) (frameCount sampleRate : Int)
    (p : Ports) (r : Regs) :
    (noOpGuard v r = true ∧
      generateEffect sin v outBase frameCount sampleRate p r = { regs := r, actions := [] }) ∨
    (noOpGuard v r = false ∧ ∃ (r' : Regs) (x : Nat → F64) (pre : List PortAction),
      generateEffect sin v outBase frameCount sampleRate p r =
        { regs := r'
          actions := pre ++ (List.range (frameTurns frameCount)).flatMap fun k => framePair outBase k (x k) } ∧
      writesOf pre = [] ∧ responsesOf pre = [] ∧
      ((silenceGuard r = true ∧ r' = r ∧ pre = []) ∨
        (silenceGuard r = false ∧
          r' = (frameNext (phaseIncrement (sampledFreq p) sampleRate))^[frameTurns frameCount] r ∧
          pre = [.sample (.freq p.pFreq), .sample (.vol p.pVol)]))) := by
  by_cases h₁ : noOpGuard v r = true
  · exact .inl ⟨h₁, generateEffect_noOp h₁⟩
  · rw [Bool.not_eq_true] at h₁
    refine .inr ⟨h₁, ?_⟩
    by_cases h₂ : silenceGuard r = true
    · exact ⟨_, _, [], generateEffect_silence h₁ h₂, rfl, rfl, .inl ⟨h₂, rfl, rfl⟩⟩
    · rw [Bool.not_eq_true] at h₂
      exact ⟨_, _, _, generateEffect_tone h₁ h₂, rfl, rfl, .inr ⟨h₂, rfl, rfl⟩⟩

end Effect

/-! ### What the envelope depends on -/

/-- The envelope value is a function of the state and the counter alone (10_state.md R31). -/
theorem envelopeValue_congr {r q : Regs} (hs : r.envelopeState = q.envelopeState)
    (hc : r.envelopeCounter = q.envelopeCounter) : envelopeValue r = envelopeValue q := by
  obtain ⟨_, _, _, _, _, _, _, _, _⟩ := r
  obtain ⟨_, _, _, _, _, _, _, _, _⟩ := q
  simp only at hs hc
  subst hs hc
  rfl

/-- The next envelope state and counter are functions of the state and the counter alone (R107, R108, R109). -/
theorem envelopeNext_congr {r q : Regs} (hs : r.envelopeState = q.envelopeState)
    (hc : r.envelopeCounter = q.envelopeCounter) :
    (envelopeNext r).envelopeState = (envelopeNext q).envelopeState ∧
    (envelopeNext r).envelopeCounter = (envelopeNext q).envelopeCounter := by
  obtain ⟨_, _, s, _, _, _, _, _, _⟩ := r
  obtain ⟨_, _, _, _, _, _, _, _, _⟩ := q
  simp only at hs hc
  subst hs hc
  cases s <;> exact ⟨rfl, rfl⟩

/-- The envelope runs on its own: it does not depend on the phase increment (R106). -/
theorem iterate_envelope_congr (delta delta' : F64) {r q : Regs} (hs : r.envelopeState = q.envelopeState)
    (hc : r.envelopeCounter = q.envelopeCounter) (k : Nat) :
    ((frameNext delta)^[k] r).envelopeState = ((frameNext delta')^[k] q).envelopeState ∧
    ((frameNext delta)^[k] r).envelopeCounter = ((frameNext delta')^[k] q).envelopeCounter := by
  induction k generalizing r q with
  | zero => exact ⟨hs, hc⟩
  | succ k ih =>
    rw [Function.iterate_succ_apply, Function.iterate_succ_apply]
    have h := envelopeNext_congr hs hc
    exact ih h.1 h.2

/-! ### The envelope and the invariant -/

theorem nextCounter_of_le {c : Word32} (h : c.toNat ≤ Config.fadeLen) :
    (nextCounter c).toNat = c.toNat + 1 := by
  have h48 : c.toNat ≤ 48 := h
  unfold nextCounter
  rw [if_pos (by omega), BitVec.toNat_add]
  simp
  omega

theorem fadeDone_iff (r : Regs) : fadeDone r = true ↔ Config.fadeLen ≤ r.envelopeCounter.toNat + 1 := by
  unfold fadeDone
  exact decide_eq_true_iff

/-- A frame keeps the invariant of reachable states (R37). -/
theorem frameNext_inv {r : Regs} (delta : F64) (h : r.Inv) : (frameNext delta r).Inv := by
  have h48 : Config.fadeLen = 48 := rfl
  obtain ⟨h1, h2, h3, h4⟩ := h
  rcases hs : r.envelopeState with _ | _ | _ | _
  · have he : envelopeNext r = r := by unfold envelopeNext; rw [hs]
    constructor <;> simp_all
  · have hc := h1 (.inl hs)
    have hn := nextCounter_of_le (c := r.envelopeCounter) (by omega)
    have he : (envelopeNext r).envelopeCounter = nextCounter r.envelopeCounter := by
      unfold envelopeNext; rw [hs]
    have hst : (envelopeNext r).envelopeState = if fadeDone r then .sustain else .fadeIn := by
      unfold envelopeNext; rw [hs]
    have hk := h3 (.inl hs)
    by_cases hd : fadeDone r = true
    · have hd' := (fadeDone_iff r).1 hd
      rw [if_pos hd] at hst
      constructor <;> rw [frameNext_envelopeState, hst] <;> (simp [he, hn, hk]; try omega)
    · have hd' := (fadeDone_iff r).not.1 hd
      rw [if_neg hd] at hst
      constructor <;> rw [frameNext_envelopeState, hst] <;> (simp [he, hn, hk]; try omega)
  · have he : envelopeNext r = r := by unfold envelopeNext; rw [hs]
    constructor <;> simp_all
  · have hc := h1 (.inr hs)
    have hn := nextCounter_of_le (c := r.envelopeCounter) (by omega)
    have he : (envelopeNext r).envelopeCounter = nextCounter r.envelopeCounter := by
      unfold envelopeNext; rw [hs]
    have hst : (envelopeNext r).envelopeState = if fadeDone r then .idle else .fadeOut := by
      unfold envelopeNext; rw [hs]
    have hk := h4 (.inl hs)
    by_cases hd : fadeDone r = true
    · have hd' := (fadeDone_iff r).1 hd
      rw [if_pos hd] at hst
      constructor <;> rw [frameNext_envelopeState, hst] <;> (simp [he, hn, hk]; try omega)
    · have hd' := (fadeDone_iff r).not.1 hd
      rw [if_neg hd] at hst
      constructor <;> rw [frameNext_envelopeState, hst] <;> (simp [he, hn, hk]; try omega)

/-! ### One frame of a fade -/

/-- One frame of a fade-in from counter `i` (R107). -/
theorem frameNext_fadeIn {r : Regs} {i : Nat} (delta : F64) (hi : i < 48) (hs : r.envelopeState = .fadeIn)
    (hc : r.envelopeCounter.toNat = i) :
    (frameNext delta r).envelopeState = (if i < 47 then .fadeIn else .sustain) ∧
    (frameNext delta r).envelopeCounter.toNat = i + 1 := by
  have h48 : Config.fadeLen = 48 := rfl
  have hn := nextCounter_of_le (c := r.envelopeCounter) (by omega)
  have hd := fadeDone_iff r
  constructor
  · rw [frameNext_envelopeState]; unfold envelopeNext; rw [hs]
    simp only
    split <;> rename_i h <;> rw [hd, hc] at h
    · rw [if_neg (by omega)]
    · rw [if_pos (by omega)]
  · rw [frameNext_envelopeCounter]; unfold envelopeNext; rw [hs]
    simp only
    rw [hn, hc]

/-- One frame of a fade-out from counter `i` (R108). -/
theorem frameNext_fadeOut {r : Regs} {i : Nat} (delta : F64) (hi : i < 48) (hs : r.envelopeState = .fadeOut)
    (hc : r.envelopeCounter.toNat = i) :
    (frameNext delta r).envelopeState = (if i < 47 then .fadeOut else .idle) ∧
    (frameNext delta r).envelopeCounter.toNat = i + 1 := by
  have h48 : Config.fadeLen = 48 := rfl
  have hn := nextCounter_of_le (c := r.envelopeCounter) (by omega)
  have hd := fadeDone_iff r
  constructor
  · rw [frameNext_envelopeState]; unfold envelopeNext; rw [hs]
    simp only
    split <;> rename_i h <;> rw [hd, hc] at h
    · rw [if_neg (by omega)]
    · rw [if_pos (by omega)]
  · rw [frameNext_envelopeCounter]; unfold envelopeNext; rw [hs]
    simp only
    rw [hn, hc]

/-- One frame outside the fades (R109). -/
theorem frameNext_resting {r : Regs} (delta : F64) (h : r.envelopeState = .sustain ∨ r.envelopeState = .idle) :
    (frameNext delta r).envelopeState = r.envelopeState ∧
    (frameNext delta r).envelopeCounter = r.envelopeCounter := by
  rw [frameNext_envelopeState, frameNext_envelopeCounter]
  unfold envelopeNext
  rcases h with h | h <;> rw [h] <;> exact ⟨h, rfl⟩

/-- The envelope value of a fade-in at counter `i` (R107). -/
theorem envelopeValue_fadeIn {r : Regs} {i : Nat} (hs : r.envelopeState = .fadeIn)
    (hc : r.envelopeCounter.toNat = i) : envelopeValue r = fdiv (i2f i) (i2f 48) := by
  unfold envelopeValue rampFraction; rw [hs, hc]; rfl

/-- The envelope value of a fade-out at counter `i`: forced to 0 on the last frame (R108). -/
theorem envelopeValue_fadeOut {r : Regs} {i : Nat} (hs : r.envelopeState = .fadeOut)
    (hc : r.envelopeCounter.toNat = i) :
    envelopeValue r = if 48 ≤ i + 1 then fZero else fsub fOne (fdiv (i2f i) (i2f 48)) := by
  have hd := fadeDone_iff r
  rw [hc] at hd
  unfold envelopeValue rampFraction
  rw [hs]
  simp only
  by_cases h : 48 ≤ i + 1
  · rw [if_pos (hd.2 h), if_pos h]
  · rw [if_neg (fun hf => h (hd.1 hf)), if_neg h, hc]; rfl

end Sys2Proof.Machine
end

