-- ==== Sys2Proof/Laws/Memory.lean ====
section
/-! SUPPORT. The laws of `OUT`: a read after a write to the same word gives the value written, every other byte reads as before, and
every operation keeps the canonical form. -/

namespace Sys2Proof.Machine

/-! ### Lookup in filtered and joined lists -/

theorem lookup_cons_eq (c : Host.Cell) (m : Memory) (a : Nat) :
    List.lookup a (c :: m) = if a = c.1 then some c.2 else m.lookup a := by
  obtain ⟨k, b⟩ := c
  by_cases h : a = k
  · subst h; simp [List.lookup]
  · have hb : (a == k) = false := by simpa using h
    simp [List.lookup, hb, h]

theorem lookup_filter_of_pos (m : Memory) (p : Nat → Bool) {a : Nat} (h : p a = true) :
    (m.filter fun c => p c.1).lookup a = m.lookup a := by
  induction m with
  | nil => rfl
  | cons c m ih =>
    rw [List.filter_cons, lookup_cons_eq]
    split
    · rw [lookup_cons_eq, ih]
    · rename_i hc
      rw [ih, if_neg]
      rintro rfl
      exact hc h

theorem lookup_of_unique (m : Memory) {a : Nat} {b : Byte} (hu : ∀ c ∈ m, c.1 = a → c.2 = b)
    (hm : ∃ c ∈ m, c.1 = a) : m.lookup a = some b := by
  induction m with
  | nil => simp at hm
  | cons c m ih =>
    rw [lookup_cons_eq]
    split
    · rw [hu c List.mem_cons_self (Eq.symm ‹_›)]
    · apply ih (fun d hd => hu d (List.mem_cons_of_mem _ hd))
      obtain ⟨d, hd, hda⟩ := hm
      rcases List.mem_cons.1 hd with rfl | hd
      · exact absurd hda.symm ‹_›
      · exact ⟨d, hd, hda⟩

theorem lookup_eq_none_of_forall_ne (m : Memory) {a : Nat} (h : ∀ c ∈ m, c.1 ≠ a) : m.lookup a = none := by
  rw [List.lookup_eq_none_iff]
  intro c hc
  simpa using fun e => h c hc e.symm

theorem lookup_append (m k : Memory) (a : Nat) : (m ++ k).lookup a = (m.lookup a).or (k.lookup a) := by
  rw [List.lookup_append]

/-! ### One word -/

theorem wordCells_key {w : WordIndex} {v : F64} {c : Host.Cell} (h : c ∈ wordCells w v) :
    8 * w.toNat ≤ c.1 ∧ c.1 < 8 * w.toNat + 8 := by
  unfold wordCells at h
  obtain ⟨j, hj, rfl⟩ := List.mem_map.1 h
  rw [List.mem_range] at hj
  exact ⟨by simp, by simp; omega⟩

theorem lookup_wordCells (w : WordIndex) (v : F64) {j : Nat} (hj : j < 8) :
    (wordCells w v).lookup (8 * w.toNat + j) = some (v.extractLsb' (8 * j) 8) := by
  apply lookup_of_unique
  · intro c hc he
    obtain ⟨k, -, rfl⟩ := List.mem_map.1 hc
    simp only at he
    rw [show k = j by omega]
  · exact ⟨_, List.mem_map.2 ⟨j, List.mem_range.2 hj, rfl⟩, rfl⟩

/-- The byte written is the byte read, least significant byte at the lowest address (R45). -/
theorem read_writeWord_inside (m : Memory) (w : WordIndex) (v : F64) {j : Nat} (hj : j < 8) :
    Memory.read (Memory.writeWord m w v) (8 * w.toNat + j) = some (v.extractLsb' (8 * j) 8) := by
  unfold Memory.read Memory.writeWord
  rw [lookup_append, lookup_append, lookup_wordCells w v hj,
    lookup_eq_none_of_forall_ne (m.filter _) (a := 8 * w.toNat + j)]
  · rfl
  · intro c hc
    have := (List.mem_filter.1 hc).2
    simp only [decide_eq_true_eq] at this
    omega

/-- A write leaves every byte outside its word alone. -/
theorem read_writeWord_outside (m : Memory) (w : WordIndex) (v : F64) {a : Nat}
    (ha : ¬(8 * w.toNat ≤ a ∧ a < 8 * w.toNat + 8)) :
    Memory.read (Memory.writeWord m w v) a = Memory.read m a := by
  unfold Memory.read Memory.writeWord
  have hcells : (wordCells w v).lookup a = none :=
    lookup_eq_none_of_forall_ne _ fun c hc e => ha (e ▸ wordCells_key hc)
  rw [lookup_append, lookup_append, hcells, Option.or_none]
  by_cases hlo : a < 8 * w.toNat
  · rw [lookup_filter_of_pos m (fun x => decide (x < 8 * w.toNat)) (by simpa using hlo),
      lookup_eq_none_of_forall_ne (m.filter fun c => decide (8 * w.toNat + 8 ≤ c.1)), Option.or_none]
    intro c hc e
    have := (List.mem_filter.1 hc).2
    simp only [decide_eq_true_eq] at this
    omega
  · rw [lookup_filter_of_pos m (fun x => decide (8 * w.toNat + 8 ≤ x)) (by simp; omega),
      lookup_eq_none_of_forall_ne (m.filter fun c => decide (c.1 < 8 * w.toNat)), Option.none_or]
    intro c hc e
    have := (List.mem_filter.1 hc).2
    simp only [decide_eq_true_eq] at this
    omega

theorem bytes_join (v : F64) :
    v.extractLsb' 56 8 ++ v.extractLsb' 48 8 ++ v.extractLsb' 40 8 ++ v.extractLsb' 32 8 ++
      v.extractLsb' 24 8 ++ v.extractLsb' 16 8 ++ v.extractLsb' 8 8 ++ v.extractLsb' 0 8 = v := by
  apply BitVec.eq_of_getLsbD_eq
  intro i hi
  simp only [BitVec.getLsbD_append, BitVec.getLsbD_extractLsb']
  interval_cases i <;> simp

/-- A word read after it is written is the word written. -/
theorem readWord_writeWord_same (m : Memory) (w : WordIndex) (v : F64) :
    Memory.readWord (Memory.writeWord m w v) w = some v := by
  have h := fun (j : Nat) (hj : j < 8) => read_writeWord_inside m w v hj
  unfold Memory.readWord
  have h0 := h 0 (by omega)
  rw [Nat.add_zero] at h0
  rw [h0, h 1 (by omega), h 2 (by omega), h 3 (by omega), h 4 (by omega), h 5 (by omega),
    h 6 (by omega), h 7 (by omega)]
  exact congrArg some (bytes_join v)

/-- A word is read through its eight bytes only. -/
theorem readWord_congr {m k : Memory} {w : WordIndex}
    (h : ∀ j < 8, Memory.read m (8 * w.toNat + j) = Memory.read k (8 * w.toNat + j)) :
    Memory.readWord m w = Memory.readWord k w := by
  have h0 := h 0 (by omega)
  rw [Nat.add_zero] at h0
  unfold Memory.readWord
  rw [h0, h 1 (by omega), h 2 (by omega), h 3 (by omega), h 4 (by omega), h 5 (by omega),
    h 6 (by omega), h 7 (by omega)]

/-- A write leaves every other word alone. -/
theorem readWord_writeWord_other (m : Memory) {w u : WordIndex} (v : F64) (h : u ≠ w) :
    Memory.readWord (Memory.writeWord m w v) u = Memory.readWord m u := by
  apply readWord_congr
  intro j hj
  apply read_writeWord_outside
  have : u.toNat ≠ w.toNat := fun e => h (BitVec.eq_of_toNat_eq e)
  omega

/-! ### The canonical form -/

theorem wordCells_pairwise (w : WordIndex) (v : F64) :
    (wordCells w v).Pairwise fun c d => c.1 < d.1 := by
  unfold wordCells
  rw [List.pairwise_map]
  exact (List.pairwise_lt_range (n := 8)).imp fun h => by simpa using h

theorem wf_writeWord {m : Memory} (h : Memory.wf m) (w : WordIndex) (v : F64) :
    Memory.wf (Memory.writeWord m w v) := by
  obtain ⟨hs, hb⟩ := h
  have hw := w.isLt
  constructor
  · unfold Memory.writeWord
    rw [List.pairwise_append, List.pairwise_append]
    refine ⟨⟨hs.filter _, wordCells_pairwise w v, ?_⟩, hs.filter _, ?_⟩
    · intro c hc d hd
      have h1 := (List.mem_filter.1 hc).2
      have h2 := wordCells_key hd
      simp only [decide_eq_true_eq] at h1
      omega
    · intro c hc d hd
      have h2 := (List.mem_filter.1 hd).2
      simp only [decide_eq_true_eq] at h2
      rcases List.mem_append.1 hc with h1 | h1
      · have h1 := (List.mem_filter.1 h1).2
        simp only [decide_eq_true_eq] at h1
        omega
      · have h1 := wordCells_key h1
        omega
  · intro c hc
    unfold Memory.writeWord at hc
    rcases List.mem_append.1 hc with h1 | h1
    · rcases List.mem_append.1 h1 with h2 | h2
      · exact hb c (List.mem_filter.1 h2).1
      · have := wordCells_key h2
        omega
    · exact hb c (List.mem_filter.1 h1).1

theorem wf_act {m : Memory} (h : Memory.wf m) (a : PortAction) : Memory.wf (Memory.act m a) := by
  cases a with
  | sample _ => exact h
  | write w v => exact wf_writeWord h w v
  | respond _ => exact h

/-- Every sequence of port actions keeps the canonical form. -/
theorem wf_actAll {m : Memory} (h : Memory.wf m) (l : List PortAction) : Memory.wf (Memory.actAll m l) := by
  induction l generalizing m with
  | nil => exact h
  | cons a l ih => exact ih (wf_act h a)

theorem wf_reset : Memory.wf State.reset.out := by decide

/-! ### A sequence of writes -/

/-- Bytes outside every word written read as before. -/
theorem read_actAll_outside (m : Memory) (l : List PortAction) {a : Nat}
    (h : ∀ p ∈ writesOf l, ¬(8 * p.1.toNat ≤ a ∧ a < 8 * p.1.toNat + 8)) :
    Memory.read (Memory.actAll m l) a = Memory.read m a := by
  rw [actAll_eq_writes]
  generalize writesOf l = ws at h
  induction ws generalizing m with
  | nil => rfl
  | cons p ws ih =>
    rw [List.foldl_cons, ih _ fun q hq => h q (List.mem_cons_of_mem _ hq),
      read_writeWord_outside _ _ _ (h p List.mem_cons_self)]

/-- A word outside every word written reads as before. -/
theorem readWord_actAll_outside (m : Memory) (l : List PortAction) {u : WordIndex}
    (h : ∀ p ∈ writesOf l, p.1 ≠ u) :
    Memory.readWord (Memory.actAll m l) u = Memory.readWord m u := by
  apply readWord_congr
  intro j hj
  apply read_actAll_outside
  intro p hp e
  have : p.1.toNat ≠ u.toNat := fun e => h p hp (BitVec.eq_of_toNat_eq e)
  omega

/-- Where no word is written twice, each word written reads as the value written to it. -/
theorem readWord_actAll_of_mem (m : Memory) (l : List PortAction) {u : WordIndex} {v : F64}
    (hn : ((writesOf l).map Prod.fst).Nodup) (h : (u, v) ∈ writesOf l) :
    Memory.readWord (Memory.actAll m l) u = some v := by
  rw [actAll_eq_writes]
  generalize writesOf l = ws at hn h
  induction ws generalizing m with
  | nil => simp at h
  | cons p ws ih =>
    rw [List.map_cons, List.nodup_cons] at hn
    rw [List.foldl_cons]
    rcases List.mem_cons.1 h with rfl | h
    · have hout : ∀ q ∈ ws, q.1 ≠ u := fun q hq e => hn.1 (List.mem_map.2 ⟨q, hq, e⟩)
      clear ih h
      have key : ∀ m', Memory.readWord
          (ws.foldl (fun m p => Memory.writeWord m p.1 p.2) m') u = Memory.readWord m' u := by
        clear hn
        induction ws with
        | nil => intro m'; rfl
        | cons q ws ih =>
          intro m'
          rw [List.foldl_cons, ih fun r hr => hout r (List.mem_cons_of_mem _ hr)]
          exact readWord_writeWord_other _ _ (hout q List.mem_cons_self).symm
      rw [key, readWord_writeWord_same]
    · exact ih _ hn.2 h

end Sys2Proof.Machine
end

