-- ==== Sys2Proof/Laws/PerInstr.lean ====
section
/-! SUPPORT. For every instruction: its encoding hits its own row of the opcode map (30_encoding.md R64), whatever the operands. -/

namespace Sys2Proof.Laws.RowHit

/-- The row of spec/opcode_table.json an instruction stands on (R64). -/
def rowOf : Instr → OpcodeRow
  | .init _ => rowInit
  | .teardown => rowTeardown
  | .setTx _ => rowSetTx
  | .regProv _ _ _ => rowRegProv
  | .generate _ _ _ _ => rowGenerate
  | .isActive => rowIsActive

/-- The encoding of `i` hits the row of `i`. -/
def Statement (i : Instr) : Prop := (rowOf i).hits (encode i) = true

theorem init (blockSize : Int) : Statement (.init blockSize) := by
  simp [Statement, rowOf, rowInit_hits, encode, packCW_eq_join, flagField]

theorem teardown : Statement .teardown := by
  simp [Statement, rowOf, rowTeardown_hits, encode, packCW_eq_join, flagField]

theorem setTx (active : Bool) : Statement (.setTx active) := by
  cases active <;> simp [Statement, rowOf, rowSetTx_hits, encode, packCW_eq_join, flagField]

theorem regProv (en freq vol : Bool) : Statement (.regProv en freq vol) := by
  cases en <;> cases freq <;> cases vol <;>
    simp [Statement, rowOf, rowRegProv_hits, encode, packCW_eq_join, flagField]

theorem generate (v : Bool) (outBase : WordIndex) (frameCount sampleRate : Int) :
    Statement (.generate v outBase frameCount sampleRate) := by
  cases v <;> simp [Statement, rowOf, rowGenerate_hits, encode, packCW_eq_join, flagField]

theorem isActive : Statement .isActive := by
  simp [Statement, rowOf, rowIsActive_hits, encode, packCW_eq_join, flagField]

end Sys2Proof.Laws.RowHit
end

