-- ==== Sys2Proof/Laws/Phase.lean ====
section
/-! SUPPORT. The phase step said once (42_generate.md R111): in the range `[0, TWO_PI)` it stays there, and it moves by the increment, less at
most one turn, up to one rounding. -/

namespace Sys2Proof.Machine

/-- The 53-bit significand of `TWO_PI`, its value in units of 2^-50. -/
abbrev twoPiSignificand : Nat := 0x1921FB54442D18

theorem twoPiSignificand_eq : twoPiSignificand = 7074237752028440 := rfl

theorem unitsOfMag_twoPi : unitsOfMag (fMag Config.twoPi) = twoPiSignificand * 2 ^ 1024 := by decide +kernel

/-- The value just below `TWO_PI`. -/
theorem unitsOfMag_twoPi_pred :
    unitsOfMag (fMag Config.twoPi - 1) = (twoPiSignificand - 1) * 2 ^ 1024 := by decide +kernel

theorem fMag_twoPi : fMag Config.twoPi = 1024 * 2 ^ 52 + twoPiSignificand := by decide +kernel

theorem fSign_twoPi : fSign Config.twoPi = false := by decide +kernel

theorem isFinite_twoPi : isFinite Config.twoPi = true := by decide +kernel

theorem units_twoPi : units Config.twoPi = ((twoPiSignificand * 2 ^ 1024 : Nat) : Int) := by
  unfold units; rw [fSign_twoPi, unitsOfMag_twoPi]; rfl

theorem isFinite_fZero : isFinite fZero = true := by decide +kernel

theorem units_fZero : units fZero = 0 := by decide +kernel

/-- `fge` of finite values is the order of the values (R12). -/
theorem fge_iff {x y : F64} (hx : isFinite x = true) (hy : isFinite y = true) :
    fge x y = true ↔ units y ≤ units x := by
  unfold fge
  simp [isNaN_of_isFinite hx, isNaN_of_isFinite hy, fKey_le_iff]

/-- A phase in `[0, TWO_PI)`, by its value. -/
theorem phaseInRange_iff (x : F64) :
    PhaseInRange x ↔
      isFinite x = true ∧ 0 ≤ units x ∧ units x < ((twoPiSignificand * 2 ^ 1024 : Nat) : Int) := by
  constructor
  · rintro ⟨h1, h2, h3⟩
    have hf : isFinite x = true := by
      by_contra hf
      have hi : fMag x = infMag := by
        have := (isNaN_false_iff x).1 h2
        have h := (isFinite_iff x).not.1 hf
        omega
      rcases hs : fSign x
      · have : x = pack false infMag := by rw [← pack_fields x, hs, hi]
        subst this
        revert h3; decide +kernel
      · have : x = pack true infMag := by rw [← pack_fields x, hs, hi]
        subst this
        revert h1; decide +kernel
    refine ⟨hf, ?_, ?_⟩
    · have := (fge_iff hf isFinite_fZero).1 h1
      rwa [units_fZero] at this
    · have := (fge_iff hf isFinite_twoPi).not.1 (by rw [h3]; simp)
      rw [units_twoPi] at this
      omega
  · rintro ⟨hf, h1, h2⟩
    refine ⟨(fge_iff hf isFinite_fZero).2 (by rw [units_fZero]; exact h1), isNaN_of_isFinite hf, ?_⟩
    rw [← Bool.not_eq_true, fge_iff hf isFinite_twoPi, units_twoPi]
    omega

theorem phaseInRange_fZero : PhaseInRange fZero := by
  rw [phaseInRange_iff, units_fZero]
  refine ⟨isFinite_fZero, le_refl 0, ?_⟩
  rw [← Nat.cast_zero, Nat.cast_lt]
  positivity

/-- A magnitude whose value is below `TWO_PI` is one value lower at least. -/
theorem unitsOfMag_le_of_lt_twoPi {m : Nat} (h : unitsOfMag m < twoPiSignificand * 2 ^ 1024) :
    unitsOfMag m ≤ (twoPiSignificand - 1) * 2 ^ 1024 := by
  rw [← unitsOfMag_twoPi, unitsOfMag_strictMono.lt_iff_lt] at h
  rw [← unitsOfMag_twoPi_pred, unitsOfMag_strictMono.le_iff_le]
  omega

/-- Twice the value just below `TWO_PI` is a binary64 value. -/
theorem exists_mag_twice_twoPi_pred :
    ∃ top, unitsOfMag top = (twoPiSignificand - 1) * 2 ^ 1025 ∧ top < infMag := by
  obtain ⟨top, htop⟩ := exists_mag_of_shift (j := twoPiSignificand - 1) 1025 (by decide)
  refine ⟨top, htop, ?_⟩
  rw [← unitsOfMag_strictMono.lt_iff_lt, htop]
  decide +kernel

/-- Below 16 the rounding error is at most 2^-50. -/
theorem rounding_error_small {n : Nat} (hn : n ≤ (twoPiSignificand - 1) * 2 ^ 1025) (h : roundMag n 1 < infMag) :
    |(unitsOfMag (roundMag n 1) : Int) - n| ≤ 2 ^ 1024 := by
  have hsh : roundShift (n / 1) ≤ 1025 := by
    rcases roundShift_le (n / 1) with h | h
    · omega
    · rw [Nat.div_one] at h ⊢
      have h' : 2 ^ (52 + roundShift n) < 2 ^ 1078 := lt_of_le_of_lt (h.trans hn) (by decide +kernel)
      have := (Nat.pow_lt_pow_iff_right (a := 2) (by decide)).1 h'
      omega
  have herr := roundMag_error (num := n) (den := 1) (by decide) h
  have hsp : 2 ^ roundShift (n / 1) ≤ 2 * 2 ^ 1024 := by
    rw [← pow_succ']; exact Nat.pow_le_pow_right (by decide) hsh
  have c : ((2 ^ 1024 : Nat) : Int) = 2 ^ 1024 := by rw [Nat.cast_pow]; rfl
  rw [← c, abs_le]
  generalize 2 ^ roundShift (n / 1) = z at *
  simp only [one_mul, mul_one] at herr
  generalize unitsOfMag (roundMag n 1) = u at *
  generalize (2 : Nat) ^ 1024 = q at *
  omega

/-- The value of a magnitude from `TWO_PI` on is a whole number of units in the last place of `TWO_PI`. -/
theorem unitsOfMag_multiple_of_twoPi_le {m : Nat} (h : fMag Config.twoPi ≤ m) :
    ∃ j, unitsOfMag m = j * 2 ^ 1024 := by
  have hs := twoPiSignificand_eq
  obtain ⟨s, r, rfl, h1, h2⟩ := mag_decompose m
  rw [unitsOfMag_shift h1.le h2]
  rw [fMag_twoPi] at h
  obtain ⟨k, rfl⟩ := Nat.exists_eq_add_of_le (show 1024 ≤ s by omega)
  exact ⟨r * 2 ^ k, by rw [pow_add]; ring⟩

/-- One phase step from the range stays in the range, and is the exact sum less at most one `TWO_PI`, up to 2^-50. -/
theorem phaseStep_inRange {delta p : F64} (hd : PhaseInRange delta) (hp : PhaseInRange p) :
    PhaseInRange (phaseStep delta p) ∧
    ∃ w : Nat, w ≤ 1 ∧
      |units (phaseStep delta p) - (units p + units delta - w * units Config.twoPi)| ≤ 2 ^ 1024 := by
  have hM := twoPiSignificand_eq
  have hq : 0 < (2 : Nat) ^ 1024 := by positivity
  obtain ⟨fd, d0, d1⟩ := (phaseInRange_iff _).1 hd
  obtain ⟨fp, p0, p1⟩ := (phaseInRange_iff _).1 hp
  have ed : units delta = (unitsOfMag (fMag delta) : Int) := by have := natAbs_units delta; omega
  have ep : units p = (unitsOfMag (fMag p) : Int) := by have := natAbs_units p; omega
  have bd := unitsOfMag_le_of_lt_twoPi (m := fMag delta) (by omega)
  have bp := unitsOfMag_le_of_lt_twoPi (m := fMag p) (by omega)
  have esum : fadd p delta =
      roundUnits (fSign p && fSign delta) ((unitsOfMag (fMag p) + unitsOfMag (fMag delta) : Nat) : Int) := by
    rw [fadd_of_finite fp fd, ed, ep]; rfl
  have hpd : units p + units delta = ((unitsOfMag (fMag p) + unitsOfMag (fMag delta) : Nat) : Int) := by
    rw [ep, ed]; rfl
  rw [hpd]
  have hn : unitsOfMag (fMag p) + unitsOfMag (fMag delta) ≤ (twoPiSignificand - 1) * 2 ^ 1025 := by
    rw [show (2 : Nat) ^ 1025 = 2 ^ 1024 * 2 from pow_succ 2 1024]
    omega
  generalize unitsOfMag (fMag p) + unitsOfMag (fMag delta) = n at *
  obtain ⟨top, htop, ttop⟩ := exists_mag_twice_twoPi_pred
  have hmle : roundMag n 1 ≤ top :=
    roundMag_le_of_le (by decide) ttop.le (by rw [htop, Nat.mul_one]; exact hn)
  have hlt : roundMag n 1 < infMag := lt_of_le_of_lt hmle ttop
  obtain ⟨ff, fu⟩ := units_roundUnits_natCast (fSign p && fSign delta) hlt
  rw [← esum] at ff fu
  have herr := rounding_error_small hn hlt
  by_cases hge : fge (fadd p delta) Config.twoPi = true
  · have hps : phaseStep delta p = fsub (fadd p delta) Config.twoPi := by
      unfold phaseStep; simp only; rw [if_pos hge]
    have hT : twoPiSignificand * 2 ^ 1024 ≤ unitsOfMag (roundMag n 1) := by
      have := (fge_iff ff isFinite_twoPi).1 hge
      rwa [units_twoPi, fu, Nat.cast_le] at this
    have hU : unitsOfMag (roundMag n 1) ≤ ((twoPiSignificand - 1) * 2) * 2 ^ 1024 := by
      rw [mul_assoc, ← pow_succ', ← htop]
      exact unitsOfMag_strictMono.monotone hmle
    obtain ⟨j, hj⟩ := unitsOfMag_multiple_of_twoPi_le (m := roundMag n 1) (by
      rwa [← unitsOfMag_twoPi, unitsOfMag_strictMono.le_iff_le] at hT)
    rw [hj] at hT hU
    have j1 := Nat.le_of_mul_le_mul_right hT hq
    have j2 := Nat.le_of_mul_le_mul_right hU hq
    obtain ⟨dm, hdm⟩ := exists_mag_of_shift (j := j - twoPiSignificand) 1024 (by omega)
    have dlt : dm < infMag := by
      refine lt_trans ?_ ((isFinite_iff _).1 isFinite_twoPi)
      rw [← unitsOfMag_strictMono.lt_iff_lt, hdm, unitsOfMag_twoPi]
      exact Nat.mul_lt_mul_of_pos_right (by omega) hq
    have ediff : units (fadd p delta) - units Config.twoPi = (unitsOfMag dm : Int) := by
      rw [fu, units_twoPi, hdm, hj, Nat.sub_mul, Nat.cast_sub (Nat.mul_le_mul_right _ j1)]
    have hrm : roundMag (unitsOfMag dm) 1 = dm := roundMag_exact_one dlt.le
    obtain ⟨rf, ru⟩ := units_roundUnits_natCast (fSign (fadd p delta) && !fSign Config.twoPi)
      (n := unitsOfMag dm) (by rw [hrm]; exact dlt)
    rw [hrm] at ru
    rw [← ediff, ← fsub_of_finite ff isFinite_twoPi, ← hps] at rf ru
    constructor
    · rw [phaseInRange_iff]
      refine ⟨rf, ?_, ?_⟩
      · rw [ru, ediff]; exact Int.natCast_nonneg _
      · rw [ru, ediff, hdm, Nat.cast_lt]
        exact Nat.mul_lt_mul_of_pos_right (by omega) hq
    · refine ⟨1, le_refl 1, ?_⟩
      rw [ru, fu, Nat.cast_one, one_mul, sub_sub_sub_cancel_right]
      exact herr
  · have hps : phaseStep delta p = fadd p delta := by unfold phaseStep; simp only; rw [if_neg hge]
    constructor
    · rw [hps, phaseInRange_iff]
      refine ⟨ff, by rw [fu]; exact Int.natCast_nonneg _, ?_⟩
      have := (fge_iff ff isFinite_twoPi).not.1 hge
      rw [units_twoPi] at this
      omega
    · refine ⟨0, Nat.zero_le 1, ?_⟩
      rw [hps, fu, Nat.cast_zero, zero_mul, sub_zero]
      exact herr

/-- A NaN in the phase or the increment makes the next phase a NaN (R117). -/
theorem isNaN_phaseStep {delta p : F64} (h : isNaN delta = true ∨ isNaN p = true) :
    isNaN (phaseStep delta p) = true := by
  have hs := isNaN_fadd h.symm
  have hg : fge (fadd p delta) Config.twoPi = false := by unfold fge; simp [hs]
  unfold phaseStep
  simp only
  rw [if_neg (by rw [hg]; simp)]
  exact hs

end Sys2Proof.Machine
end

