-- ==== Sys2Proof/Laws/Rounding.lean ====
section
/-! SUPPORT. What a rounding with a sign is, said once in the terms of the claims (`RoundsTo`, 00_scope.md R11). -/

namespace Sys2Proof.Machine

theorem overflow_bound_cast : ((2 ^ 54 - 1) * 2 ^ 2044 : Int) = (((2 ^ 54 - 1) * 2 ^ 2044 : Nat) : Int) := by
  rw [Nat.cast_mul, Nat.cast_pow]; rfl

theorem abs_signed (neg : Bool) (n : Nat) : |(if neg then -(n : Int) else n)| = n := by
  cases neg <;> simp

/-- A rounded magnitude with a sign is the exact result of that sign, rounded. -/
theorem roundsTo_pack {num den : Nat} (hd : 0 < den) (neg : Bool) :
    RoundsTo (pack neg (roundMag num den)) (if neg then -(num : Int) else num) den where
  number := by
    rw [isNaN_false_iff, fMag_pack _ (roundMag_lt _ _)]
    exact roundMag_le _ _
  overflow := by
    rw [isInf_iff, fMag_pack _ (roundMag_lt _ _), roundMag_eq_infMag_iff hd, abs_signed, overflow_bound_cast,
      Nat.abs_cast, ← Nat.cast_mul, Nat.cast_le]
  nearest hf z _ := by
    rw [isFinite_iff, fMag_pack _ (roundMag_lt _ _)] at hf
    exact (pack_roundMag_nearest hd hf neg z).1
  even hf z _ := by
    rw [isFinite_iff, fMag_pack _ (roundMag_lt _ _)] at hf
    rw [fMag_pack _ (roundMag_lt _ _)]
    exact (pack_roundMag_nearest hd hf neg z).2

/-- Changing the sign of numerator and denominator together changes nothing. -/
theorem RoundsTo.negBoth {r : F64} {num den : Int} (h : RoundsTo r num den) : RoundsTo r (-num) (-den) := by
  have key : ∀ t : Int, |t * -den - -num| = |t * den - num| := fun t => by
    rw [← abs_neg]; congr 1; ring
  constructor
  · exact h.number
  · rw [abs_neg, abs_neg]; exact h.overflow
  · intro hf z hz; rw [key, key]; exact h.nearest hf z hz
  · intro hf z hz; rw [key, key]; exact h.even hf z hz

/-- A zero is the rounding of a zero result. -/
theorem roundsTo_zero (neg : Bool) : RoundsTo (pack neg 0) 0 1 := by
  have h := roundsTo_pack (num := 0) (den := 1) (by decide) neg
  rw [roundMag_zero (by decide)] at h
  cases neg <;> simpa using h

/-- `roundUnits` is the exact result rounded, with the sign of the exact result, or the one given for a zero (R11). -/
theorem roundsTo_roundUnits (zeroSign : Bool) (e : Int) :
    RoundsTo (roundUnits zeroSign e) e 1 ∧
    fSign (roundUnits zeroSign e) = (if e = 0 then zeroSign else decide (e < 0)) := by
  unfold roundUnits
  by_cases h0 : e = 0
  · subst h0
    rw [if_pos rfl, if_pos rfl]
    exact ⟨roundsTo_zero _, fSign_pack _ (by decide)⟩
  · rw [if_neg h0, if_neg h0]
    refine ⟨?_, fSign_pack _ (roundMag_lt _ _)⟩
    have h := roundsTo_pack (num := e.natAbs) (den := 1) (by decide) (decide (e < 0))
    have he : (if decide (e < 0) = true then -(e.natAbs : Int) else e.natAbs) = e := by
      by_cases hn : e < 0
      · rw [if_pos (by simpa using hn), Int.ofNat_natAbs_of_nonpos hn.le, neg_neg]
      · rw [if_neg (by simpa using hn), Int.natAbs_of_nonneg (by omega)]
    rwa [he, Nat.cast_one] at h

end Sys2Proof.Machine
end

