-- ==== Sys2Proof/Laws/Step.lean ====
section
/-! SUPPORT. What one step can do, said once: every command commits its effect, and every step is one host event. -/

namespace Sys2Proof.Machine

/-- Every command completes, and takes its whole effect (R8, R144). -/
theorem exec_eq_commit (i : Instr) (s : State) : exec i s = .next (s.commit (effectOf i s)) := by
  cases i <;> rfl

/-- What an accepted command leaves is the commit of its effect. -/
theorem exec_next_iff {i : Instr} {s t : State} : exec i s = .next t ↔ t = s.commit (effectOf i s) := by
  rw [exec_eq_commit]
  constructor
  · intro h; injection h with h; exact h.symm
  · rintro rfl; rfl

theorem step_nil {s : State} (h : s.pending = []) : step s = .next s := by
  unfold step; rw [h]

theorem step_cons {s : State} {e : HostEvent} {rest : List HostEvent} (h : s.pending = e :: rest) :
    step s = runEvent e { s with pending := rest } := by
  unfold step; rw [h]

theorem acceptWord_of_decode {w : CmdWord} {i : Instr} (h : decode w = .ok i) (s : State) :
    acceptWord w s = exec i s := by
  unfold acceptWord; rw [h]

/-- A reserved word is accepted and ignored (R65). -/
theorem acceptWord_of_reserved {w : CmdWord} {e : Reserved} (h : decode w = .error e) (s : State) :
    acceptWord w s = .next s := by
  unfold acceptWord; rw [h]

theorem acceptWordCut_of_decode {w : CmdWord} {i : Instr} (h : decode w = .ok i) (n : Nat) (s : State) :
    acceptWordCut w n s = s.cutByRst (effectOf i s) n := by
  unfold acceptWordCut; rw [h]

theorem acceptWordCut_of_reserved {w : CmdWord} {e : Reserved} (h : decode w = .error e) (n : Nat) (s : State) :
    acceptWordCut w n s = s.assertRst := by
  unfold acceptWordCut; rw [h]

/-- The cases of a step that answers a next state: idle, a command, a reserved word, the ports driven, `rst`, a command cut by `rst`,
a reserved word cut by `rst`, `ALLOC_OK` set. -/
theorem step_cases {s t : State} (h : step s = .next t) :
    (s.pending = [] ∧ t = s) ∨
    (∃ w i rest, s.pending = .command w :: rest ∧ decode w = .ok i ∧
      t = ({ s with pending := rest } : State).commit (effectOf i { s with pending := rest })) ∨
    (∃ w e rest, s.pending = .command w :: rest ∧ decode w = .error e ∧ t = { s with pending := rest }) ∨
    (∃ p rest, s.pending = .drive p :: rest ∧ t = { s with pending := rest, ports := p }) ∨
    (∃ rest, s.pending = .rst :: rest ∧ t = ({ s with pending := rest } : State).assertRst) ∨
    (∃ w n i rest, s.pending = .commandCutByRst w n :: rest ∧ decode w = .ok i ∧
      t = ({ s with pending := rest } : State).cutByRst (effectOf i { s with pending := rest }) n) ∨
    (∃ w n e rest, s.pending = .commandCutByRst w n :: rest ∧ decode w = .error e ∧
      t = ({ s with pending := rest } : State).assertRst) ∨
    (∃ ok rest, s.pending = .setAllocOk ok :: rest ∧ t = { s with pending := rest, allocOk := ok }) := by
  rcases hp : s.pending with _ | ⟨e, rest⟩
  · rw [step_nil hp] at h
    injection h with h
    exact .inl ⟨rfl, h.symm⟩
  · rw [step_cons hp] at h
    right
    cases e with
    | command w =>
      change acceptWord w _ = _ at h
      rcases hd : decode w with e | i
      · rw [acceptWord_of_reserved hd] at h
        injection h with h
        exact .inr (.inl ⟨w, e, rest, rfl, hd, h.symm⟩)
      · rw [acceptWord_of_decode hd] at h
        exact .inl ⟨w, i, rest, rfl, hd, exec_next_iff.1 h⟩
    | drive p =>
      injection h with h
      exact .inr (.inr (.inl ⟨p, rest, rfl, h.symm⟩))
    | rst =>
      injection h with h
      exact .inr (.inr (.inr (.inl ⟨rest, rfl, h.symm⟩)))
    | commandCutByRst w n =>
      injection h with h
      rcases hd : decode w with e | i
      · rw [acceptWordCut_of_reserved hd] at h
        exact .inr (.inr (.inr (.inr (.inr (.inl ⟨w, n, e, rest, rfl, hd, h.symm⟩)))))
      · rw [acceptWordCut_of_decode hd] at h
        exact .inr (.inr (.inr (.inr (.inl ⟨w, n, i, rest, rfl, hd, h.symm⟩))))
    | setAllocOk ok =>
      injection h with h
      exact .inr (.inr (.inr (.inr (.inr (.inr ⟨ok, rest, rfl, h.symm⟩)))))

@[simp] theorem withFetchWord_regs (s : State) (nbits w : Nat) : (s.withFetchWord nbits w).regs = s.regs := rfl
@[simp] theorem withFetchWord_pending (s : State) (nbits w : Nat) :
    (s.withFetchWord nbits w).pending = .command (wordOfTable nbits w) :: s.pending := rfl

end Sys2Proof.Machine
end

