-- ==== Sys2Proof/Tests/Slice0.lean ====
section
/-! SUPPORT. The model's own tests. Expected results come from spec/95_test_vectors.md (V-…, P…, T…) or from the tables of
spec/30_encoding.md, never from the model. The witness theorems show, for each obligation with hypotheses, concrete operands that meet
all of them together. -/

namespace Sys2Proof.Tests

open Sys2Proof Sys2Proof.Machine

/-! ### Decoding (95_test_vectors.md V-E1 to V-E18) -/

theorem test_decode_init_512 : decode 0x01000000000002000000000000000000#128 = .ok (.init 512) := by decide
theorem test_decode_init_minus_one : decode 0x01000000FFFFFFFF0000000000000000#128 = .ok (.init (-1)) := by decide
theorem test_decode_init_field_b : decode 0x01000000000002000000000100000000#128 = .error .operandField := by decide
theorem test_decode_teardown : decode 0x02000000000000000000000000000000#128 = .ok .teardown := by decide
theorem test_decode_set_tx : decode 0x03000001000000000000000000000000#128 = .ok (.setTx true) := by decide
theorem test_decode_set_tx_flag1 : decode 0x03000002000000000000000000000000#128 = .error .flagBits := by decide
theorem test_decode_reg_prov : decode 0x04000005000000000000000000000000#128 = .ok (.regProv true false true) := by decide
theorem test_decode_reg_prov_flag3 : decode 0x04000008000000000000000000000000#128 = .error .flagBits := by decide
theorem test_decode_generate :
    decode 0x0500000100001000000002000000BB80#128 = .ok (.generate true 0x1000#32 512 48000) := by decide
theorem test_decode_generate_null :
    decode 0x05000000DEADBEEF000000040000BB80#128 = .ok (.generate false 0xDEADBEEF#32 4 48000) := by decide
theorem test_decode_generate_negative :
    decode 0x0500000100000000FFFFFFFF0000BB80#128 = .ok (.generate true 0#32 (-1) 48000) := by decide
theorem test_decode_generate_flag1 : decode 0x0500000300000000000000040000BB80#128 = .error .flagBits := by decide
theorem test_decode_generate_rsv : decode 0x0510000100000000000000040000BB80#128 = .error .reservedField := by decide
theorem test_decode_is_active : decode 0x06000000000000000000000000000000#128 = .ok .isActive := by decide
theorem test_decode_is_active_field_c : decode 0x06000000000000000000000000000001#128 = .error .operandField := by decide
theorem test_decode_opcode_0 : decode 0x00000000000000000000000000000000#128 = .error .opcode := by decide
theorem test_decode_opcode_7 : decode 0x07000000000000000000000000000000#128 = .error .opcode := by decide
theorem test_decode_opcode_255 : decode 0xFFFFFFFFFFFFFFFFFFFFFFFFFFFFFFFF#128 = .error .opcode := by decide

/-- The encoder's words are the words of the programs of 95_test_vectors.md part 4. -/
theorem test_encode_generate :
    encode (.generate true 0x14#32 50 48000) = 0x0500000100000014000000320000BB80#128 := by decide
theorem test_decode_table_word :
    decodeTableWord 128 0x04000006000000000000000000000000 = some (.regProv false true true) := by decide
theorem test_fetch_word :
    (State.reset.withFetchWord 128 0x02000000000000000000000000000000).pending =
      [.command 0x02000000000000000000000000000000#128] := by decide

/-! ### Well-formedness (30_encoding.md R63): every check refuses an ill-formed term -/

theorem test_wf_init_top : Instr.wellFormed (.init (2 ^ 31)) = false := by decide
theorem test_wf_init_bottom : Instr.wellFormed (.init (-2 ^ 31 - 1)) = false := by decide
theorem test_wf_generate_frame_count : Instr.wellFormed (.generate true 0#32 (2 ^ 31) 48000) = false := by decide
theorem test_wf_generate_sample_rate : Instr.wellFormed (.generate true 0#32 4 (-2 ^ 31 - 1)) = false := by decide
theorem test_wf_edges :
    WellFormed (.init (2 ^ 31 - 1)) ∧ WellFormed (.generate false 0#32 (-2 ^ 31) (2 ^ 31 - 1)) := by decide

/-! ### Commands -/

/-- The state a command leaves. -/
def after : Host.Outcome State Fault Refusal → Option State
  | .next t => some t
  | .fault _ => none
  | .refused _ => none

/-- `(init, transmit_active, envelope_state, envelope_counter, phase, providers, block_size)`, as 95_test_vectors.md writes a state. -/
def record (init tx : Bool) (es : EnvelopeState) (ctr : Word32) (phase : F64) (pe pf pv : Bool) (bs : Word32) : Regs :=
  { phase := phase, transmitActive := tx, envelopeState := es, envelopeCounter := ctr, init := init,
    provEn := pe, provFreq := pf, provVol := pv, blockSize := bs }

/-- `P_EN` = 1, `P_FREQ` = 600, `P_VOL` = 0.5. -/
def ports600 : Ports := { pEn := true, pFreq := 0x00000258#32, pVol := 0x3FE0000000000000#64 }

/-- A machine with this record and these ports. -/
def mk (r : Regs) (p : Ports := ports600) : State := { State.reset with regs := r, ports := p }

/-- (1, 1, FadeIn, 0, 0, 111, 8), the start of V-G2 to V-G14. -/
def fadeInStart : Regs := record true true .fadeIn 0#32 0x0000000000000000#64 true true true 8#32

/-- (1, 1, Sustain, 48, `0x40041B2F769CF188`, 111, 512), the start of V-L2. -/
def sustainStart : Regs := record true true .sustain 48#32 0x40041B2F769CF188#64 true true true 512#32

/-- V-L2. -/
theorem test_init_keeps_providers :
    (after (exec (.init 64) (mk sustainStart))).map State.regs =
      some (record true false .idle 0#32 0x0000000000000000#64 true true true 64#32) := by decide
/-- V-L6. -/
theorem test_init_alloc_fails :
    (after (exec (.init 512) { State.reset with allocOk := false })).map State.regs =
      some (record false false .idle 0#32 0x0000000000000000#64 false false false 512#32) := by decide
/-- V-L3. -/
theorem test_teardown : (after (exec .teardown (mk sustainStart))).map State.regs =
    some (record false false .idle 0#32 0x0000000000000000#64 false false false 0#32) := by decide
/-- V-L5. -/
theorem test_reg_prov : (after (exec (.regProv false true true) (mk fadeInStart))).map State.regs =
    some (record true true .fadeIn 0#32 0x0000000000000000#64 false true true 8#32) := by decide
/-- V-TX4, second half: re-keying during a fade-out. -/
theorem test_set_tx_rising :
    (after (exec (.setTx true) (mk (record true false .fadeOut 20#32 0x40041B2F769CF188#64 true true true 8#32)))).map
        State.regs =
      some (record true true .fadeIn 0#32 0x0000000000000000#64 true true true 8#32) := by decide
/-- V-TX4, first half. -/
theorem test_set_tx_falling : (after (exec (.setTx false) (mk sustainStart))).map State.regs =
    some (record true false .fadeOut 0#32 0x40041B2F769CF188#64 true true true 512#32) := by decide
/-- V-G3. -/
theorem test_generate_silence :
    (after (exec (.generate true 0#32 4 48000) (mk { fadeInStart with provFreq := false }))).map
        (fun t => (t.regs, t.trace)) =
      some ({ fadeInStart with provFreq := false }, (List.range 8).map fun w =>
        .write (BitVec.ofNat 32 w) 0x0000000000000000#64) := by decide
/-- T3 and P3: four frames at 600 Hz, 48000 Hz. -/
theorem test_generate_tone_state :
    (after (exec (.generate true 0#32 4 48000) (mk fadeInStart))).map State.regs =
      some (record true true .fadeIn 4#32 0x3FD41B2F769CF0E0#64 true true true 8#32) := by decide +kernel
/-- V-A4. -/
theorem test_is_active_yes : (after (exec .isActive (mk fadeInStart))).map (fun t => responsesOf t.trace) =
    some [true] := by decide
/-- V-A2: without the enabled provider the response is 0 and no port is sampled. -/
theorem test_is_active_no_provider :
    (after (exec .isActive (mk { fadeInStart with provEn := false }))).map (fun t => t.trace) =
      some [.respond false] := by decide

/-! ### Arithmetic and frames -/

/-- V-G5, the address wrap, for a sine unit with `SIN(0)` = 0: both words positive zero. -/
theorem test_generate_address_wrap :
    writesOf (generateEffect (fun _ => fZero) true 0xFFFFFFFF#32 1 48000 ports600 fadeInStart).actions =
      [(0xFFFFFFFF#32, 0x0000000000000000#64), (0x00000000#32, 0x0000000000000000#64)] := by decide +kernel
/-- T1, frames 1 and 2 of a fade-in: with `SIN` = 1 and volume 1.0 the sample is the envelope. -/
theorem test_generate_ramp_samples :
    writesOf (generateEffect (fun _ => fOne) true 0#32 3 48000 { ports600 with pVol := fOne } fadeInStart).actions =
      [(0#32, 0x0000000000000000#64), (1#32, 0x0000000000000000#64), (2#32, 0x3F95555555555555#64),
       (3#32, 0x3F95555555555555#64), (4#32, 0x3FA5555555555555#64), (5#32, 0x3FA5555555555555#64)] := by
  decide +kernel
/-- T1, row 37, and row 47 of a fade-out, which is forced to zero. -/
theorem test_envelope_fade_out :
    envelopeValue { fadeInStart with envelopeState := .fadeOut, envelopeCounter := 37#32 } = 0x3FCD555555555554#64 ∧
    envelopeValue { fadeInStart with envelopeState := .fadeOut, envelopeCounter := 47#32 } = 0x0000000000000000#64 := by
  decide +kernel
/-- T2: 1200 Hz at 44100 Hz, -600 Hz at 48000 Hz, -2147483648 Hz at 1 Hz, 600 Hz at 0 Hz. -/
theorem test_phase_increment :
    phaseIncrement 1200 44100 = 0x3FC5E260F08EF4C3#64 ∧ phaseIncrement (-600) 48000 = 0xBFB41B2F769CF0E0#64 ∧
    phaseIncrement (-2147483648) 1 = 0xC20921FB54442D18#64 ∧ phaseIncrement 600 0 = 0x7FF0000000000000#64 := by
  decide +kernel
/-- V-G7: the fourth sum is exactly `TWO_PI` and wraps to zero; T3: the first wrap at 600 Hz. -/
theorem test_phase_wrap :
    phaseStep 0x3FF921FB54442D18#64 0x4012D97C7F3321D2#64 = 0x0000000000000000#64 ∧
    phaseStep 0x3FB41B2F769CF0E0#64 0x4018D18E9669B962#64 = 0x3D0C000000000000#64 := by decide +kernel
/-- Subnormals are kept (00_scope.md R11): half the least normal value is a subnormal, and half the least subnormal ties to zero. -/
theorem test_subnormals :
    fmul 0x0010000000000000#64 0x3FE0000000000000#64 = 0x0008000000000000#64 ∧
    fmul 0x0000000000000001#64 0x3FE0000000000000#64 = 0x0000000000000000#64 := by decide +kernel
/-- `MemWrite` then a write of the byte view (20_memory.md R45): little-endian. -/
theorem test_memory_bytes :
    Memory.read (Memory.writeWord [] 2#32 0x0102030405060708#64) 16 = some 0x08#8 ∧
    Memory.read (Memory.writeWord [] 2#32 0x0102030405060708#64) 23 = some 0x01#8 ∧
    Memory.read (Memory.writeWord [] 2#32 0x0102030405060708#64) 24 = none := by decide

/-! ### Witnesses: operands that meet the hypotheses of the obligations -/

/-- The word of V-E9. -/
def wordGenerate : CmdWord := 0x0500000100001000000002000000BB80#128

/-- The reserved word of V-E17. -/
def wordReserved : CmdWord := 0x07000000000000000000000000000000#128

/-- The Idle state of V-G13. -/
def idleStart : Regs := record true false .idle 48#32 0x400921FB54442D18#64 true true true 8#32

theorem witness_DecodeOfEncode :
    WellFormed (.init (-2 ^ 31)) ∧ WellFormed .teardown ∧ WellFormed (.setTx true) ∧ WellFormed (.regProv true true true) ∧
    WellFormed (.generate true 0xFFFFFFFF#32 (2 ^ 31 - 1) (-2 ^ 31)) ∧ WellFormed .isActive := by decide

theorem witness_EncodeOfDecode : decode wordGenerate = .ok (.generate true 0x1000#32 512 48000) := by decide

theorem witness_OpcodeRowsDisjoint : rowGenerate ∈ opcodeRows ∧ rowGenerate.hits wordGenerate = true := by decide

theorem witness_ReservedWordsIgnored :
    ({ State.reset with pending := [.command wordReserved] } : State).pending = .command wordReserved :: [] ∧
    decode wordReserved = .error .opcode := by decide

theorem witness_StepRunsDecodedCommand :
    ({ mk fadeInStart with pending := [.command wordGenerate] } : State).pending = .command wordGenerate :: [] ∧
    decode wordGenerate = .ok (.generate true 0x1000#32 512 48000) := by decide

theorem witness_StepWithoutCommand :
    State.reset.pending = [] ∧
    ({ State.reset with pending := [.drive ports600] } : State).pending = .drive ports600 :: [] ∧
    ({ State.reset with pending := [.setAllocOk false] } : State).pending = .setAllocOk false :: [] := by decide

theorem witness_RstResult :
    ({ mk fadeInStart with pending := [.rst] } : State).pending = .rst :: [] ∧
    (({ mk fadeInStart with pending := [.commandCutByRst wordGenerate 5] } : State).pending =
        .commandCutByRst wordGenerate 5 :: [] ∧ decode wordGenerate = .ok (.generate true 0x1000#32 512 48000)) ∧
    (({ mk fadeInStart with pending := [.commandCutByRst wordReserved 0] } : State).pending =
        .commandCutByRst wordReserved 0 :: [] ∧ decode wordReserved = .error .opcode) := by decide

theorem witness_OutIsReplayOfWrites : ∃ t, step { mk fadeInStart with pending := [.command wordGenerate] } = .next t :=
  ⟨_, rfl⟩

theorem witness_WordWriteAndRead :
    (0 : Nat) < 8 ∧ (7 : Nat) < 8 ∧ ((15 : Nat) < 8 * (2#32 : WordIndex).toNat ∨ 8 * (2#32 : WordIndex).toNat + 8 ≤ 15) ∧
    ((24 : Nat) < 8 * (2#32 : WordIndex).toNat ∨ 8 * (2#32 : WordIndex).toNat + 8 ≤ 24) := by decide

theorem witness_SampleWordIndices :
    WellFormed (.generate true 0xFFFFFFFF#32 (2 ^ 31 - 1) 48000) ∧ (mk fadeInStart).regs.init = true ∧
    ((0 : Nat) < frameTurns (2 ^ 31 - 1) ∧ (0 : Nat) < 2) ∧ ((2 ^ 31 - 2 : Nat) < frameTurns (2 ^ 31 - 1) ∧ (1 : Nat) < 2) := by
  decide

theorem witness_StepKeepsOutCanonical :
    Memory.wf ({ mk fadeInStart with out := [(7, 0x2A#8)], pending := [.command wordGenerate] } : State).out ∧
    ∃ t, step { mk fadeInStart with out := [(7, 0x2A#8)], pending := [.command wordGenerate] } = .next t :=
  ⟨by decide, _, rfl⟩

theorem witness_InitResult : InS32 (-2 ^ 31) ∧ InS32 (2 ^ 31 - 1) := by decide

theorem witness_BlockSizeWrittenNeverRead :
    (∃ t, exec (.init 512) State.reset = .next t) ∧ (∃ t, exec .teardown (mk sustainStart) = .next t) ∧
    ((∀ n, Instr.isActive ≠ .init n) ∧ Instr.isActive ≠ .teardown ∧ ∃ t, exec .isActive (mk fadeInStart) = .next t) ∧
    ∃ t, exec (.generate true 0#32 4 48000) (mk fadeInStart) = .next t :=
  ⟨⟨_, rfl⟩, ⟨_, rfl⟩, ⟨nofun, by decide, _, rfl⟩, _, rfl⟩

theorem witness_ResetValues : ({ mk fadeInStart with pending := [.rst] } : State).pending = .rst :: [] := by decide

theorem witness_FirstSampleAfterRisingEdgeIsZero :
    SinZero (fun _ => fZero) ∧ isFinite 0x3FE0000000000000#64 = true ∧ (mk idleStart).regs.transmitActive = false ∧
    ∃ t, exec (.setTx true) (mk idleStart) = .next t :=
  ⟨rfl, by decide +kernel, rfl, _, rfl⟩

theorem witness_FallingEdgeStartsFromFullLevel :
    (mk fadeInStart).regs.transmitActive = true ∧ ∃ t, exec (.setTx false) (mk fadeInStart) = .next t :=
  ⟨rfl, _, rfl⟩

theorem witness_RepeatedSetTxIsNoOp :
    true = (mk fadeInStart).regs.transmitActive ∧ false = (mk idleStart).regs.transmitActive ∧
    ∃ t, exec (.setTx true) (mk idleStart) = .next t :=
  ⟨rfl, rfl, _, rfl⟩

theorem witness_TransmitActiveChangesOnlyByCall :
    (∀ n, Instr.isActive ≠ .init n) ∧ Instr.isActive ≠ .teardown ∧ (∀ a, Instr.isActive ≠ .setTx a) ∧
    ∃ t, exec .isActive (mk fadeInStart) = .next t :=
  ⟨nofun, by decide, nofun, _, rfl⟩

theorem witness_MissingEnabledProviderAnswersFalse :
    (mk { fadeInStart with provEn := false }).regs.provEn = false ∧ (mk fadeInStart).regs.provEn = true := by decide

theorem witness_IsActiveIgnoresEnvelope :
    ((mk fadeInStart).regs.transmitActive = (mk sustainStart).regs.transmitActive ∧
      (mk fadeInStart).regs.provEn = (mk sustainStart).regs.provEn ∧
      (mk fadeInStart).ports.pEn = (mk sustainStart).ports.pEn ∧
      (∃ t, exec .isActive (mk fadeInStart) = .next t) ∧ ∃ t, exec .isActive (mk sustainStart) = .next t) ∧
    ((mk fadeInStart).regs.provEn = true ∧ (mk fadeInStart).ports.pEn = true ∧
      ∃ t u, exec (.setTx false) (mk fadeInStart) = .next t ∧ exec (.generate true 0#32 4 48000) t = .next u) ∧
    (State.reset.regs = State.reset.regs ∧ ∃ u, exec .isActive State.reset = .next u) ∧
    (∃ s u, exec (.init 8) (mk fadeInStart) = .next s ∧ exec .isActive s = .next u) ∧
    ∃ s u, exec .teardown (mk fadeInStart) = .next s ∧ exec .isActive s = .next u :=
  ⟨⟨rfl, rfl, rfl, ⟨_, rfl⟩, _, rfl⟩, ⟨rfl, rfl, _, _, rfl, rfl⟩, ⟨rfl, _, rfl⟩, ⟨_, _, rfl, rfl⟩, _, _, rfl, rfl⟩

theorem witness_OnlyIsActiveResponds :
    (∃ t, exec .teardown (mk fadeInStart) = .next t) ∧ Instr.teardown ≠ .isActive ∧
    ∃ t, exec .isActive (mk fadeInStart) = .next t :=
  ⟨⟨_, rfl⟩, by decide, _, rfl⟩

theorem witness_GenerateNoOpGuard :
    (false = false ∨ (mk fadeInStart).regs.init = false) ∧ (true = false ∨ State.reset.regs.init = false) := by decide

theorem witness_GenerateSilence :
    WellFormed (.generate true 0xFFFFFFFF#32 4 48000) ∧ (mk { fadeInStart with provVol := false }).regs.init = true ∧
    ((mk { fadeInStart with provVol := false }).regs.provFreq = false ∨
      (mk { fadeInStart with provVol := false }).regs.provVol = false) := by decide

theorem witness_FrameCountRule :
    (0 : Int) ≤ 0 ∧ (-2 ^ 31 : Int) ≤ 0 ∧ ((0 : Int) < 1 ∧ (mk fadeInStart).regs.init = true) ∧
    WellFormed (.generate true 0#32 (2 ^ 31 - 1) 48000) := by decide

/-- The hypotheses of GenerateToneResult, GenerateToneWords, WritesAscend and the last clause of PhaseAdvance. -/
theorem witness_GenerateTone :
    WellFormed (.generate true 0x1000#32 512 48000) ∧ (mk fadeInStart).regs.init = true ∧
    (mk fadeInStart).regs.provFreq = true ∧ (mk fadeInStart).regs.provVol = true := by decide

/-- The hypotheses of GenerateFrame, both of its inner ones with them. -/
theorem witness_GenerateFrame :
    (∃ t, exec (.generate true 0#32 1 48000) (mk fadeInStart) = .next t) ∧
    (∀ j < 2 * frameTurns 1,
      ¬(8 * (sampleIndex 0#32 j).toNat ≤ 16 ∧ 16 < 8 * (sampleIndex 0#32 j).toNat + 8)) ∧
    (true = false ∨ (mk fadeInStart).regs.init = false ∨ (0 : Int) ≤ 0) :=
  ⟨⟨_, rfl⟩, by decide, by decide⟩

theorem witness_OnlyGenerateWritesOut :
    (∀ v b n r, Instr.isActive ≠ .generate v b n r) ∧ ∃ t, exec .isActive (mk fadeInStart) = .next t :=
  ⟨nofun, _, rfl⟩

theorem witness_GenerateSamplesPortsOnce : ∃ t, exec (.generate true 0#32 4 48000) (mk fadeInStart) = .next t := ⟨_, rfl⟩

/-- No provider registered, all three ports changed. -/
theorem witness_AbsentProvidersIgnored :
    (State.reset.regs.provEn = true → ports600.pEn = State.reset.ports.pEn) ∧
    (State.reset.regs.provFreq = true → ports600.pFreq = State.reset.ports.pFreq) ∧
    (State.reset.regs.provVol = true → ports600.pVol = State.reset.ports.pVol) ∧
    ∃ t, exec (.generate true 0#32 4 48000) State.reset = .next t :=
  ⟨by decide, by decide, by decide, _, rfl⟩

theorem witness_FadeInRamp :
    (fadeInStart.envelopeState = .fadeIn ∧ fadeInStart.envelopeCounter = 0#32 ∧ fadeInStart.envelopeCounter.toNat + 1 < 2 ^ 32 ∧
      (0 : Nat) < 48 ∧ (47 : Nat) < 48 ∧ (48 : Nat) ≤ 48) ∧
    ({ fadeInStart with envelopeCounter := 0xFFFFFFFE#32 } : Regs).envelopeCounter.toNat + 1 < 2 ^ 32 := by decide

theorem witness_FadeOutRamp :
    (({ fadeInStart with envelopeState := .fadeOut } : Regs).envelopeState = .fadeOut ∧
      ({ fadeInStart with envelopeState := .fadeOut } : Regs).envelopeCounter = 0#32 ∧
      (46 : Nat) < 47 ∧ (47 : Nat) < 48 ∧ (48 : Nat) ≤ 48) ∧
    ({ fadeInStart with envelopeState := .fadeOut, envelopeCounter := 47#32 } : Regs).envelopeCounter.toNat + 1 < 2 ^ 32 := by
  decide

theorem witness_SustainAndIdleHold :
    ((mk sustainStart).regs.envelopeState = .sustain ∨ (mk sustainStart).regs.envelopeState = .idle) ∧
    ((mk idleStart).regs.envelopeState = .sustain ∨ (mk idleStart).regs.envelopeState = .idle) ∧
    (∀ n, Instr.isActive ≠ .init n) ∧ Instr.isActive ≠ .teardown ∧ (∀ a, Instr.isActive ≠ .setTx a) ∧
    ∃ t, exec .isActive (mk idleStart) = .next t :=
  ⟨by decide, by decide, nofun, by decide, nofun, _, rfl⟩

theorem witness_FadeLengthIndependentOfRate :
    (∃ t, exec (.generate true 0#32 50 48000) (mk fadeInStart) = .next t) ∧
    (∃ t, exec (.generate true 0#32 50 96000) { mk fadeInStart with ports := Ports.undriven } = .next t) ∧
    phaseIncrement (s32 State.reset.ports.pFreq) 96000 = phaseIncrement (s32 State.reset.ports.pFreq) 48000 :=
  ⟨⟨_, rfl⟩, ⟨_, rfl⟩, by decide +kernel⟩

theorem witness_KeyingCycle :
    ((mk idleStart).regs.init = true ∧ (mk idleStart).regs.provFreq = true ∧ (mk idleStart).regs.provVol = true ∧
      true ≠ (mk idleStart).regs.transmitActive ∧ (48 : Int) ≤ 48) ∧
    ((mk sustainStart).regs.init = true ∧ (mk sustainStart).regs.provFreq = true ∧
      (mk sustainStart).regs.provVol = true ∧ false ≠ (mk sustainStart).regs.transmitActive) := by decide

/-- A sum equal to `TWO_PI` (V-G7), one above it, one below. -/
theorem witness_PhaseAdvance :
    fadd 0x4012D97C7F3321D2#64 0x3FF921FB54442D18#64 = Config.twoPi ∧
    fge (fadd 0x4018D18E9669B962#64 0x3FB41B2F769CF0E0#64) Config.twoPi = true ∧
    fge (fadd fZero 0x3FB41B2F769CF0E0#64) Config.twoPi = false := by decide +kernel

/-- Phase 0, and the largest increment of the supported range at 8000 Hz or more. -/
theorem witness_GenerateKeepsPhaseRange :
    PhaseInRange (mk fadeInStart { ports600 with pFreq := 1200#32 }).regs.phase ∧
    PhaseInRange (phaseIncrement (s32 (mk fadeInStart { ports600 with pFreq := 1200#32 }).ports.pFreq) 8000) ∧
    ∃ t, exec (.generate true 0#32 4 8000) (mk fadeInStart { ports600 with pFreq := 1200#32 }) = .next t :=
  ⟨by unfold PhaseInRange; decide +kernel, by unfold PhaseInRange; decide +kernel, _, rfl⟩

theorem witness_IncrementBelowTwoPi :
    ((0 : Int) ≤ 0 ∧ (0 : Int) < 1 ∧ InS32 1) ∧
    ((0 : Int) ≤ 2 ^ 31 - 2 ∧ (2 ^ 31 - 2 : Int) < 2 ^ 31 - 1 ∧ InS32 (2 ^ 31 - 1)) := by decide

/-- The least and the greatest value of the range. -/
theorem witness_PhaseAccumulates : PhaseInRange fZero ∧ PhaseInRange 0x401921FB54442D17#64 := by
  unfold PhaseInRange; decide +kernel

theorem witness_NanPhasePersists :
    (isNaN 0x7FF8000000000000#64 = true ∨ isNaN fZero = true) ∧
    (isNaN (mk { fadeInStart with phase := 0x7FF0000000000001#64 }).regs.phase = true ∧
      ∃ t, exec (.generate true 0#32 4 48000) (mk { fadeInStart with phase := 0x7FF0000000000001#64 }) = .next t) ∧
    (mk idleStart).regs.transmitActive = false :=
  ⟨by decide +kernel, ⟨by decide +kernel, _, rfl⟩, rfl⟩

theorem witness_ZeroSampleRate :
    (InS32 (-2 ^ 31) ∧ (-2 ^ 31 : Int) ≠ 0) ∧ (InS32 1 ∧ (1 : Int) ≠ 0) ∧
    isInf 0x7FF0000000000000#64 = true ∧ isInf 0xFFF0000000000000#64 = true ∧ isFinite fZero = true := by
  decide +kernel

/-- The last clause at the infinity of V-G12, here on a Sustain frame. -/
theorem witness_NonfiniteSamples :
    (SinNonfinite (fun _ => 0x7FF8000000000000#64) ∧
      isFinite ({ fadeInStart with phase := 0x7FF0000000000000#64 } : Regs).phase = false) ∧
    (isFinite 0x7FF0000000000000#64 = false ∧ envelopeValue idleStart = fZero) ∧ isNaN 0xFFF8000000000000#64 = true ∧
    (isInf 0x7FF0000000000000#64 = true ∧ isNaN ((fun _ => fOne) sustainStart.phase) = false ∧
      isZero ((fun _ => fOne) sustainStart.phase) = false ∧ isNaN (envelopeValue sustainStart) = false ∧
      isZero (envelopeValue sustainStart) = false) :=
  ⟨⟨fun _ _ => (by decide +kernel : isNaN 0x7FF8000000000000#64 = true), by decide +kernel⟩,
    ⟨by decide +kernel, rfl⟩, by decide +kernel, by decide +kernel⟩

theorem witness_IdleFramesAreSilent :
    SinBound (fun _ => fOne) ∧ isFinite idleStart.phase = true ∧ isFinite 0x7FEFFFFFFFFFFFFF#64 = true ∧
    idleStart.envelopeState = .idle :=
  ⟨fun _ _ => (by decide +kernel : isFinite fOne = true ∧ fMag fOne ≤ fMag fOne), by decide +kernel, by decide +kernel, rfl⟩

theorem witness_PhaseAdvancesInEveryState : idleStart.phase = ({ idleStart with envelopeState := .fadeIn } : Regs).phase := rfl

/-- Finite operands at the extremes, with an overflow and an exact zero sum among them; infinite operands of both signs; a NaN. -/
theorem witness_SumRoundsToNearestEven :
    (isFinite 0x7FEFFFFFFFFFFFFF#64 = true ∧ isFinite 0x8000000000000001#64 = true ∧
      isInf (fadd 0x7FEFFFFFFFFFFFFF#64 0x7FEFFFFFFFFFFFFF#64) = true ∧
      isFinite (fadd 0x7FEFFFFFFFFFFFFF#64 0x8000000000000001#64) = true ∧
      units 0x7FEFFFFFFFFFFFFF#64 + units 0xFFEFFFFFFFFFFFFF#64 = 0) ∧
    (isInf 0xFFF0000000000000#64 = true ∧ isFinite fOne = true) ∧
    (isInf 0x7FF0000000000000#64 = true ∧ fSign 0x7FF0000000000000#64 ≠ fSign 0xFFF0000000000000#64) ∧
    (isNaN 0x7FF8000000000000#64 = true ∨ isNaN fOne = true) := by decide +kernel

/-- Finite operands with an overflow and an underflow; an infinity with a finite value, an infinity and a zero; a NaN. -/
theorem witness_ProductRoundsToNearestEven :
    (isFinite 0x7FEFFFFFFFFFFFFF#64 = true ∧ isFinite 0x8000000000000001#64 = true ∧
      isInf (fmul 0x7FEFFFFFFFFFFFFF#64 0x7FEFFFFFFFFFFFFF#64) = true ∧
      isZero (fmul 0x8000000000000001#64 0x8000000000000001#64) = true) ∧
    (isInf 0xFFF0000000000000#64 = true ∧ isNaN fOne = false ∧ isZero fOne = false ∧
      isNaN 0x7FF0000000000000#64 = false ∧ isZero 0x7FF0000000000000#64 = false) ∧
    isZero 0x8000000000000000#64 = true ∧ (isNaN fOne = true ∨ isNaN 0x7FF8000000000000#64 = true) := by decide +kernel

/-- Finite operands with an overflow and an underflow; infinite operands; a zero divisor; a NaN. -/
theorem witness_QuotientRoundsToNearestEven :
    (isFinite 0x7FEFFFFFFFFFFFFF#64 = true ∧ isFinite 0x8000000000000001#64 = true ∧ isZero 0x8000000000000001#64 = false ∧
      isInf (fdiv 0x7FEFFFFFFFFFFFFF#64 0x8000000000000001#64) = true ∧ isZero 0x7FEFFFFFFFFFFFFF#64 = false ∧
      isZero (fdiv 0x8000000000000001#64 0x7FEFFFFFFFFFFFFF#64) = true) ∧
    (isInf 0xFFF0000000000000#64 = true ∧ isFinite 0x8000000000000000#64 = true ∧ isInf 0x7FF0000000000000#64 = true) ∧
    (isZero 0x8000000000000000#64 = true ∧ isZero fZero = true ∧ isZero fOne = false) ∧
    (isNaN fOne = true ∨ isNaN 0x7FF8000000000000#64 = true) := by decide +kernel

theorem witness_IntegersExactAndOrder :
    |(2 ^ 32 - 1 : Int)| < 2 ^ 53 ∧ |(-2 ^ 31 : Int)| < 2 ^ 53 ∧ isFinite fZero = true ∧ isFinite fOne = true ∧
    (isInf 0x7FF0000000000000#64 = true ∧ isInf 0xFFF0000000000000#64 = true ∧ isNaN 0xFFF0000000000000#64 = false) ∧
    (isNaN 0x7FF8000000000000#64 = true ∨ isNaN fOne = true) := by decide +kernel

/-- A state in the middle of a fade-in meets the invariant, and its step answers a next state. -/
theorem witness_StepKeepsInvariant :
    ({ mk fadeInStart with pending := [.command wordGenerate] } : State).regs.Inv ∧
    ∃ t, step { mk fadeInStart with pending := [.command wordGenerate] } = .next t :=
  ⟨⟨by decide, by decide, by decide, by decide⟩, _, rfl⟩

/-- A run of two steps: `INIT 512`, then an idle step; and a state with `init` = 0. -/
theorem witness_ReachableStatesMeetInvariant :
    (∃ s, ReachableFrom { State.reset with pending := [.command 0x01000000000002000000000000000000#128] } s ∧
      s.regs.init = true) ∧
    ReachableFrom { State.reset with pending := [] } State.reset ∧ State.reset.regs.init = false :=
  ⟨⟨_, .next (.next .refl rfl) rfl, rfl⟩, .refl, rfl⟩

end Sys2Proof.Tests
end

section
/-! PROOFS of the family 10_state.md. The reset values (R38): both clauses run one transition, TEARDOWN or `rst`. `block_size` (R28): a
helper that overwrites it, `Regs.withBlockSize`, commutes with everything a frame does, so no effect depends on the old value. -/

namespace Sys2Proof.Machine

/-! ### The reset values (R38) -/

theorem teardownEffect_regs (r : Regs) : (teardownEffect r).regs = Regs.reset := rfl

theorem step_rst {s : State} {rest : List HostEvent} (h : s.pending = .rst :: rest) :
    step s = .next ({ s with pending := rest } : State).assertRst :=
  step_cons h

/-- Settles O17: TEARDOWN and `rst` both leave `Regs.reset`, whatever `S` was. -/
theorem resetValues : Obligations.ResetValues := by
  unfold Obligations.ResetValues
  refine ⟨rfl, rfl, fun s => ?_, fun s rest hp => ?_⟩
  · exact ⟨_, exec_eq_commit .teardown s, teardownEffect_regs s.regs⟩
  · exact ⟨_, step_rst hp, assertRst_regs _⟩

/-! ### The commands keep `block_size` (R28) -/

theorem setTxEffect_blockSize (active : Bool) (r : Regs) : (setTxEffect active r).regs.blockSize = r.blockSize := by
  unfold setTxEffect
  by_cases he : isEdge active r = true
  · cases active <;> simp [he, risingEdge, fallingEdge]
  · simp [he]

theorem generateEffect_blockSize (sin : F64 → F64) (v : Bool) (outBase : WordIndex) (frameCount sampleRate : Int)
    (p : Ports) (r : Regs) :
    (generateEffect sin v outBase frameCount sampleRate p r).regs.blockSize = r.blockSize := by
  obtain ⟨-, e⟩ | ⟨-, r', x, pre, e, -, -, hpath⟩ := generateEffect_cases sin v outBase frameCount sampleRate p r
  · rw [e]
  · rw [e]
    obtain ⟨-, hr, -⟩ | ⟨-, hr, -⟩ := hpath
    · exact congrArg Regs.blockSize hr
    · obtain ⟨-, -, -, -, -, hb⟩ := iterate_frame (phaseIncrement (sampledFreq p) sampleRate) r (frameTurns frameCount)
      exact (congrArg Regs.blockSize hr).trans hb

/-- Only INIT and TEARDOWN write `block_size`. -/
theorem effectOf_blockSize {i : Instr} (s : State) (hinit : ∀ n, i ≠ .init n) (htear : i ≠ .teardown) :
    (effectOf i s).regs.blockSize = s.regs.blockSize := by
  cases i with
  | init n => exact absurd rfl (hinit n)
  | teardown => exact absurd rfl htear
  | setTx active => exact setTxEffect_blockSize active s.regs
  | regProv en freq vol => rfl
  | generate v outBase frameCount sampleRate => exact generateEffect_blockSize _ _ _ _ _ _ _
  | isActive => rfl

/-! ### No command reads `block_size` (R28) -/

/-- `S` with another value in `block_size`. -/
def Regs.withBlockSize (b : Word32) (r : Regs) : Regs := { r with blockSize := b }

/-- An effect that leaves another value in `block_size`, with the same port actions. -/
def Effect.withBlockSize (b : Word32) (e : Effect) : Effect := { e with regs := e.regs.withBlockSize b }

theorem frameSample_withBlockSize (sin : F64 → F64) (vol : F64) (b : Word32) (r : Regs) :
    frameSample sin vol (r.withBlockSize b) = frameSample sin vol r :=
  congrArg (fmul (fmul (sin r.phase) vol)) (envelopeValue_congr rfl rfl)

theorem envelopeNext_withBlockSize (b : Word32) (r : Regs) :
    envelopeNext (r.withBlockSize b) = (envelopeNext r).withBlockSize b := by
  obtain ⟨_, _, state, _, _, _, _, _, _⟩ := r
  cases state <;> rfl

theorem frameNext_commute_withBlockSize (delta : F64) (b : Word32) :
    Function.Commute (frameNext delta) (Regs.withBlockSize b) := fun r =>
  congrArg (fun q : Regs => { q with phase := phaseStep delta r.phase }) (envelopeNext_withBlockSize b r)

theorem iterate_withBlockSize (delta : F64) (b : Word32) (k : Nat) (r : Regs) :
    (frameNext delta)^[k] (r.withBlockSize b) = ((frameNext delta)^[k] r).withBlockSize b :=
  (frameNext_commute_withBlockSize delta b).iterate_left k r

theorem setTxEffect_withBlockSize (active : Bool) (b : Word32) (r : Regs) :
    setTxEffect active (r.withBlockSize b) = (setTxEffect active r).withBlockSize b := by
  obtain ⟨_, transmit, _, _, _, _, _, _, _⟩ := r
  cases active <;> cases transmit <;> rfl

/-- GENERATE takes the same path, and every frame gives the same sample and carries `block_size` along. -/
theorem generateEffect_withBlockSize (sin : F64 → F64) (v : Bool) (outBase : WordIndex) (frameCount sampleRate : Int)
    (p : Ports) (b : Word32) (r : Regs) :
    generateEffect sin v outBase frameCount sampleRate p (r.withBlockSize b) =
      (generateEffect sin v outBase frameCount sampleRate p r).withBlockSize b := by
  have hguard : noOpGuard v (r.withBlockSize b) = noOpGuard v r := rfl
  have hsilence : silenceGuard (r.withBlockSize b) = silenceGuard r := rfl
  rcases h₁ : noOpGuard v r with _ | _
  · rcases h₂ : silenceGuard r with _ | _
    · rw [generateEffect_tone (hguard.trans h₁) (hsilence.trans h₂), generateEffect_tone h₁ h₂]
      simp only [iterate_withBlockSize, frameSample_withBlockSize]
      rfl
    · rw [generateEffect_silence (hguard.trans h₁) (hsilence.trans h₂), generateEffect_silence h₁ h₂]
      rfl
  · rw [generateEffect_noOp (hguard.trans h₁), generateEffect_noOp h₁]
    rfl

/-- The port actions of a command do not depend on `block_size`, and nothing it leaves in another field does. -/
theorem effectOf_withBlockSize (i : Instr) (b : Word32) (s : State) :
    (effectOf i { s with regs := s.regs.withBlockSize b }).withBlockSize 0#32 = (effectOf i s).withBlockSize 0#32 := by
  cases i with
  | init n => rfl
  | teardown => rfl
  | setTx active =>
    change (setTxEffect active (s.regs.withBlockSize b)).withBlockSize 0#32 = _
    rw [setTxEffect_withBlockSize]
    rfl
  | regProv en freq vol => rfl
  | generate v outBase frameCount sampleRate =>
    change (generateEffect Config.sin v outBase frameCount sampleRate s.ports
      (s.regs.withBlockSize b)).withBlockSize 0#32 = _
    rw [generateEffect_withBlockSize]
    rfl
  | isActive => rfl

/-- Settles O18: the two writers by their effects, the others by `effectOf_blockSize`, and the independence by
`effectOf_withBlockSize`. -/
theorem blockSizeWrittenNeverRead : Obligations.BlockSizeWrittenNeverRead := by
  unfold Obligations.BlockSizeWrittenNeverRead
  refine ⟨fun n s t h => ?_, fun s t h => ?_, rfl, fun i s t hinit htear h => ?_, fun i b s t h => ?_⟩
  · rw [exec_next_iff.1 h]; rfl
  · rw [exec_next_iff.1 h]; rfl
  · rw [exec_next_iff.1 h]; exact effectOf_blockSize s hinit htear
  · rw [exec_next_iff.1 h]
    have heffect := effectOf_withBlockSize i b s
    have hactions := congrArg Effect.actions heffect
    exact ⟨_, exec_eq_commit i _, congrArg (s.trace ++ ·) hactions, congrArg (Memory.actAll s.out) hactions,
      rfl, rfl, rfl, congrArg Effect.regs heffect⟩

end Sys2Proof.Machine
end

section
/-! PROOFS of the family 20_memory.md. The word indices of GENERATE (R43): past the no-op guard both paths write the word indices
`sampleIndex out_base 0, 1, …` in order, and the count, each index and their being different are read off that one list. -/

namespace Sys2Proof.Machine

/-- Past the no-op guard, GENERATE writes two words a frame, in ascending offset, on both paths (R43, R100, R102). -/
theorem generateEffect_writeIndices {v : Bool} {r : Regs} (hguard : noOpGuard v r = false) (sin : F64 → F64)
    (outBase : WordIndex) (frameCount sampleRate : Int) (p : Ports) :
    (writesOf (generateEffect sin v outBase frameCount sampleRate p r).actions).map Prod.fst =
      (List.range (2 * frameTurns frameCount)).map (sampleIndex outBase) := by
  obtain ⟨hnoOp, -⟩ | ⟨-, r', x, pre, heffect, hpre, -⟩ := generateEffect_cases sin v outBase frameCount sampleRate p r
  · exact absurd (hguard.symm.trans hnoOp) Bool.false_ne_true
  · rw [heffect, writesOf_append, hpre, List.nil_append, writeIndices_frames]

/-- Where the write at offset `j` goes, in a list of writes with ascending offsets. -/
theorem writeIndex_toNat {writes : List (WordIndex × F64)} {outBase : WordIndex} {n j : Nat}
    (hwrites : writes.map Prod.fst = (List.range n).map (sampleIndex outBase)) (hn : j < n) (hj : j < 2 ^ 32) :
    (writes[j]?).map (fun p => p.1.toNat) = some ((outBase.toNat + j) % 2 ^ 32) := by
  calc (writes[j]?).map (fun p => p.1.toNat)
    _ = ((writes.map Prod.fst)[j]?).map BitVec.toNat := by rw [List.getElem?_map, Option.map_map]; rfl
    _ = some (sampleIndex outBase j).toNat := by simp [hwrites, hn]
    _ = some ((outBase.toNat + j) % 2 ^ 32) := by rw [sampleIndex_toNat outBase hj]

/-- Settles O12: the indices written are `sampleIndex out_base j` for `j < 2n`, and `n < 2^31`. -/
theorem sampleWordIndices : Obligations.SampleWordIndices := by
  unfold Obligations.SampleWordIndices
  intro outBase frameCount sampleRate s hwf hinit
  have hturns : frameTurns frameCount < 2 ^ 31 := frameTurns_lt (wellFormed_generate.1 hwf).1
  have hguard : noOpGuard true s.regs = false := by simp [noOpGuard, hinit]
  have hwrites : (writesOf (effectOf (.generate true outBase frameCount sampleRate) s).actions).map Prod.fst =
      (List.range (2 * frameTurns frameCount)).map (sampleIndex outBase) :=
    generateEffect_writeIndices hguard _ _ _ _ _
  refine ⟨_, exec_eq_commit _ s, _, commit_trace _ _, fun i hi c hc => ?_, ?_, ?_⟩
  · have hoffset : 2 * i + c ≤ 2 ^ 32 - 3 := by omega
    rw [Nat.add_assoc]
    exact ⟨hoffset, writeIndex_toNat hwrites (by omega) (by omega)⟩
  · simpa using congrArg List.length hwrites
  · rw [hwrites]
    exact sampleIndex_nodup outBase hturns

end Sys2Proof.Machine
end

section
/-! PROOFS of the family 30_encoding.md. Reserved words (R65): what the six rows ask of the fields, compared with R65 one opcode at a
time. Responses (R69): read off the port actions of each command's effect. -/

namespace Sys2Proof

/-! ### Which words are reserved (R65) -/

theorem flg_and_upper3_eq_zero (x : BitVec 4) : x &&& 0xE#4 = 0#4 ↔ x.extractLsb' 1 3 = 0#3 := by
  revert x; decide

theorem flg_and_top_eq_zero (x : BitVec 4) : x &&& 0x8#4 = 0#4 ↔ x.getLsbD 3 = false := by
  revert x; decide

/-- A word is reserved exactly when its fields meet none of the six rows of R62. -/
theorem decode_error_iff_fields (w : CmdWord) :
    (∃ e, decode w = .error e) ↔
      ¬(w.opc = 1#8 ∧ w.rsv = 0#20 ∧ w.flg = 0#4 ∧ w.b = 0#32 ∧ w.c = 0#32) ∧
      ¬(w.opc = 2#8 ∧ w.rsv = 0#20 ∧ w.flg = 0#4 ∧ w.a = 0#32 ∧ w.b = 0#32 ∧ w.c = 0#32) ∧
      ¬(w.opc = 3#8 ∧ w.rsv = 0#20 ∧ w.flg.extractLsb' 1 3 = 0#3 ∧ w.a = 0#32 ∧ w.b = 0#32 ∧ w.c = 0#32) ∧
      ¬(w.opc = 4#8 ∧ w.rsv = 0#20 ∧ w.flg.getLsbD 3 = false ∧ w.a = 0#32 ∧ w.b = 0#32 ∧ w.c = 0#32) ∧
      ¬(w.opc = 5#8 ∧ w.rsv = 0#20 ∧ w.flg.extractLsb' 1 3 = 0#3) ∧
      ¬(w.opc = 6#8 ∧ w.rsv = 0#20 ∧ w.flg = 0#4 ∧ w.a = 0#32 ∧ w.b = 0#32 ∧ w.c = 0#32) := by
  rw [decode_error_iff]
  simp only [opcodeRows, List.forall_mem_cons, rowInit_hits, rowTeardown_hits, rowSetTx_hits, rowRegProv_hits,
    rowGenerate_hits, rowIsActive_hits, flg_and_upper3_eq_zero, flg_and_top_eq_zero, List.not_mem_nil,
    false_implies, implies_true, and_true]

/-- An opcode is outside the opcode map, and then none of the six, or it is one of them (R62, R65). -/
theorem opc_cases (x : BitVec 8) :
    ((x = 0x00#8 ∨ 0x07#8 ≤ x) ∧ x ≠ 1#8 ∧ x ≠ 2#8 ∧ x ≠ 3#8 ∧ x ≠ 4#8 ∧ x ≠ 5#8 ∧ x ≠ 6#8) ∨
    x = 1#8 ∨ x = 2#8 ∨ x = 3#8 ∨ x = 4#8 ∨ x = 5#8 ∨ x = 6#8 := by
  bv_omega

end Sys2Proof

namespace Sys2Proof.Machine

/-- A step that accepts a reserved word takes it off the host's list and does nothing else (R65). -/
theorem step_command_of_reserved {s : State} {w : CmdWord} {e : Reserved} {rest : List HostEvent}
    (hp : s.pending = .command w :: rest) (hd : decode w = .error e) :
    step s = .next { s with pending := rest } :=
  (step_cons hp).trans (acceptWord_of_reserved hd _)

/-- Settles O4: under each opcode, R65's list denies what that opcode's row asks of the other fields. -/
theorem reservedWordsIgnored : Obligations.ReservedWordsIgnored := by
  unfold Obligations.ReservedWordsIgnored
  refine ⟨fun w => ?_, fun s w e rest hp hd => step_command_of_reserved hp hd⟩
  rw [decode_error_iff_fields]
  obtain ⟨hout, h1, h2, h3, h4, h5, h6⟩ | hopc | hopc | hopc | hopc | hopc | hopc := opc_cases w.opc
  · simp only [h1, h2, h3, h4, h5, h6, hout, false_and, not_false_eq_true, and_self, true_or]
  -- A row asks for all its fields at once, so it fails when one of them is wrong: R65's list.
  all_goals simp [hopc, not_and_or, -not_and]

/-! ### Who responds (R69) -/

/-- GENERATE gives no response on any path. -/
theorem generateEffect_responses (sin : F64 → F64) (v : Bool) (outBase : WordIndex) (frameCount sampleRate : Int)
    (p : Ports) (r : Regs) : responsesOf (generateEffect sin v outBase frameCount sampleRate p r).actions = [] := by
  obtain ⟨-, heffect⟩ | ⟨-, r', x, pre, heffect, -, hpre, -⟩ :=
    generateEffect_cases sin v outBase frameCount sampleRate p r
  · rw [heffect]; rfl
  · rw [heffect, responsesOf_append, hpre, (quiet_frames _ _ _).1, List.append_nil]

/-- IS_ACTIVE gives one response, after the sample of `P_EN` where the provider is registered (R130). -/
theorem isActiveEffect_responses (p : Ports) (r : Regs) :
    responsesOf (isActiveEffect p r).actions = [r.transmitActive && enabledAnswer r p] := by
  have hsample : responsesOf (if r.provEn then [.sample (.en p.pEn)] else []) = [] := by
    cases r.provEn <;> rfl
  exact (responsesOf_append _ _).trans (congrArg (· ++ [_]) hsample)

/-- No other command responds. -/
theorem effectOf_responses {i : Instr} (h : i ≠ .isActive) (s : State) : responsesOf (effectOf i s).actions = [] := by
  cases i with
  | init n => rfl
  | teardown => rfl
  | setTx active => rfl
  | regProv en freq vol => rfl
  | generate v outBase frameCount sampleRate => exact generateEffect_responses _ _ _ _ _ _ _
  | isActive => exact absurd rfl h

/-- Settles O27: the port actions of a command are those of its effect. -/
theorem onlyIsActiveResponds : Obligations.OnlyIsActiveResponds := by
  unfold Obligations.OnlyIsActiveResponds
  intro i s t h
  rw [exec_next_iff.1 h]
  refine ⟨_, commit_trace _ _, fun hother => effectOf_responses hother s, ?_⟩
  rintro rfl
  exact congrArg List.length (isActiveEffect_responses s.ports s.regs)

end Sys2Proof.Machine
end

section
/-! PROOFS of the family 40_lifecycle.md. INIT, TEARDOWN and REG_PROV perform no port action, so each changes `S` alone, and in
each the new `S` is read off the effect. -/

namespace Sys2Proof.Machine

/-- The flag field of the commands without flag operands (R62). -/
theorem flagField_none : flagField false false false false = 0#4 := by decide

/-! ### Commands without port actions -/

/-- An effect without port actions changes `S` alone. -/
theorem commit_of_no_actions {e : Effect} (s : State) (h : e.actions = []) : s.commit e = { s with regs := e.regs } := by
  obtain ⟨regs, actions⟩ := e
  obtain rfl : actions = [] := h
  exact commit_quiet s regs

/-- A command that performs no port action changes `S` alone. -/
theorem exec_of_no_actions {i : Instr} {s : State} (h : (effectOf i s).actions = []) :
    exec i s = .next { s with regs := (effectOf i s).regs } := by
  rw [exec_eq_commit, commit_of_no_actions s h]

theorem exec_init (blockSize : Int) (s : State) :
    exec (.init blockSize) s = .next { s with regs := (initEffect s.allocOk blockSize s.regs).regs } :=
  exec_of_no_actions rfl

theorem exec_teardown (s : State) : exec .teardown s = .next { s with regs := Regs.reset } :=
  exec_of_no_actions rfl

theorem exec_regProv (en freq vol : Bool) (s : State) :
    exec (.regProv en freq vol) s = .next { s with regs := (regProvEffect en freq vol s.regs).regs } :=
  exec_of_no_actions rfl

/-- GENERATE with a null buffer or before INIT changes nothing (R101). -/
theorem exec_generate_noOp {v : Bool} {s : State} (h : noOpGuard v s.regs = true) (outBase : WordIndex)
    (frameCount sampleRate : Int) : exec (.generate v outBase frameCount sampleRate) s = .next s := by
  have heffect : effectOf (.generate v outBase frameCount sampleRate) s = { regs := s.regs, actions := [] } :=
    generateEffect_noOp h
  rw [exec_eq_commit, heffect, commit_quiet]

/-- In the reset state GENERATE meets its no-op guard, whatever its buffer (R38, R101). -/
theorem noOpGuard_reset (v : Bool) : noOpGuard v Regs.reset = true := Bool.or_true _

/-! ### What each command leaves (R80, R81, R82) -/

/-- Settles O14: INIT overwrites six fields with values that do not depend on `S`, so a second INIT writes the same. -/
theorem initResult : Obligations.InitResult := by
  unfold Obligations.InitResult
  intro blockSize s
  refine ⟨?_, s32_field32, _, exec_init blockSize s, rfl, exec_init blockSize _⟩
  rw [encode, flagField_none]

/-- Settles O15: TEARDOWN leaves `Regs.reset`, in which `init` = 0 makes GENERATE a no-op. -/
theorem teardownResult : Obligations.TeardownResult := by
  unfold Obligations.TeardownResult
  refine ⟨?_, fun s => ⟨_, exec_teardown s, rfl, exec_teardown _, fun v outBase frameCount sampleRate => ?_⟩⟩
  · rw [encode, flagField_none]
  · exact exec_generate_noOp (noOpGuard_reset v) outBase frameCount sampleRate

/-- Settles O16: the encoder's row, and `exec_regProv` in any state. -/
theorem regProvResult : Obligations.RegProvResult := by
  unfold Obligations.RegProvResult
  exact fun en freq vol s => ⟨rfl, exec_regProv en freq vol s⟩

end Sys2Proof.Machine
end

section
/-! PROOFS of the family 41_transmit_edge.md. SET_TX performs no port action, so `setTxEffect` says all of it; its three cases are no
edge (R93), the rising edge (R91) and the falling edge (R92). After either edge `transmit_active` is the operand, so the same command
again meets no edge. -/

namespace Sys2Proof.Machine

theorem isEdge_iff {active : Bool} {r : Regs} : isEdge active r = true ↔ active ≠ r.transmitActive :=
  bne_iff_ne

theorem exec_setTx (active : Bool) (s : State) :
    exec (.setTx active) s = .next { s with regs := (setTxEffect active s.regs).regs } :=
  exec_of_no_actions rfl

/-- Without an edge `S` stays as it is (R93). -/
theorem setTxEffect_regs_of_eq {active : Bool} {r : Regs} (h : active = r.transmitActive) :
    (setTxEffect active r).regs = r :=
  if_neg fun hedge => isEdge_iff.1 hedge h

/-- With an edge, the operand says which one (R91, R92). -/
theorem setTxEffect_regs_of_ne {active : Bool} {r : Regs} (h : active ≠ r.transmitActive) :
    (setTxEffect active r).regs = if active then risingEdge r else fallingEdge r :=
  if_pos (isEdge_iff.2 h)

theorem setTxEffect_transmitActive (active : Bool) (r : Regs) :
    (setTxEffect active r).regs.transmitActive = active := by
  by_cases h : active = r.transmitActive
  · rw [setTxEffect_regs_of_eq h, h]
  · rw [setTxEffect_regs_of_ne h]
    cases active <;> rfl

/-- A repeated value changes nothing, outside `S` either (R93). -/
theorem exec_setTx_repeated {active : Bool} {s : State} (h : active = s.regs.transmitActive) :
    exec (.setTx active) s = .next s := by
  rw [exec_setTx, setTxEffect_regs_of_eq h]

theorem exec_setTx_transmitActive {active : Bool} {s t : State} (h : exec (.setTx active) s = .next t) :
    t.regs.transmitActive = active := by
  rw [exec_setTx] at h
  cases h
  exact setTxEffect_transmitActive active s.regs

/-- Settles O19: the encoder's row, and `exec_setTx` in the three cases of its effect. -/
theorem setTxResult : Obligations.SetTxResult := by
  unfold Obligations.SetTxResult
  intro active s
  refine ⟨rfl, ?_⟩
  rw [exec_setTx]
  by_cases h : active = s.regs.transmitActive
  · rw [setTxEffect_regs_of_eq h, if_pos h]
  · rw [setTxEffect_regs_of_ne h, if_neg h]
    rfl

/-- Settles O22: after SET_TX, `transmit_active` is the operand, so the second call repeats the value. -/
theorem repeatedSetTxIsNoOp : Obligations.RepeatedSetTxIsNoOp := by
  unfold Obligations.RepeatedSetTxIsNoOp
  exact ⟨fun _ _ h => exec_setTx_repeated h, fun _ _ _ h => exec_setTx_repeated (exec_setTx_transmitActive h).symm⟩

end Sys2Proof.Machine
end

section
/-! PROOFS of the family 42_generate.md. The guards (R101, R102) pick the path, and `generateEffect_regs` says in one equation what `S`
is on all of them. The writes of frames are one list over the offsets (`writesOf_frames_offsets`), so what a word of `OUT` holds
afterwards is read off that list. Both fades are one induction (`iterate_fade`): they differ in the state they end in alone. -/

namespace Sys2Proof.Machine

/-! ### The guards (R101, R102) -/

theorem noOpGuard_iff {v : Bool} {r : Regs} : noOpGuard v r = true ↔ v = false ∨ r.init = false := by
  simp [noOpGuard]

theorem silenceGuard_iff {r : Regs} : silenceGuard r = true ↔ r.provFreq = false ∨ r.provVol = false := by
  simp [silenceGuard]

theorem noOpGuard_of_init {r : Regs} (h : r.init = true) : noOpGuard true r = false := by
  simp [noOpGuard, h]

theorem silenceGuard_of_providers {r : Regs} (hfreq : r.provFreq = true) (hvol : r.provVol = true) :
    silenceGuard r = false := by
  simp [silenceGuard, hfreq, hvol]

/-- Settles O28: either half is the first guard. -/
theorem generateNoOpGuard : Obligations.GenerateNoOpGuard := by
  unfold Obligations.GenerateNoOpGuard
  exact fun v outBase frameCount sampleRate s h => exec_generate_noOp (noOpGuard_iff.2 h) outBase frameCount sampleRate

/-! ### What GENERATE leaves in `S` -/

/-- `S` after GENERATE: unchanged where a guard holds, otherwise `n` frames on (R100 to R102). -/
theorem generateEffect_regs (sin : F64 → F64) (v : Bool) (outBase : WordIndex) (frameCount sampleRate : Int)
    (p : Ports) (r : Regs) :
    (generateEffect sin v outBase frameCount sampleRate p r).regs =
      if noOpGuard v r = true ∨ silenceGuard r = true then r
      else (frameNext (phaseIncrement (sampledFreq p) sampleRate))^[frameTurns frameCount] r := by
  rcases h₁ : noOpGuard v r with _ | _
  · rcases h₂ : silenceGuard r with _ | _
    · rw [generateEffect_tone h₁ h₂, if_neg (by decide)]
    · rw [generateEffect_silence h₁ h₂, if_pos (.inr rfl)]
  · rw [generateEffect_noOp h₁, if_pos (.inl rfl)]

/-- The effect of GENERATE where both guards let it through (R100). -/
theorem effectOf_generate_tone {s : State} (hinit : s.regs.init = true) (hfreq : s.regs.provFreq = true)
    (hvol : s.regs.provVol = true) (outBase : WordIndex) (frameCount sampleRate : Int) :
    effectOf (.generate true outBase frameCount sampleRate) s =
      { regs := (frameNext (phaseIncrement (sampledFreq s.ports) sampleRate))^[frameTurns frameCount] s.regs
        actions := [.sample (.freq s.ports.pFreq), .sample (.vol s.ports.pVol)] ++
          (List.range (frameTurns frameCount)).flatMap fun k =>
            framePair outBase k (frameSample Config.sin s.ports.pVol
              ((frameNext (phaseIncrement (sampledFreq s.ports) sampleRate))^[k] s.regs)) } :=
  generateEffect_tone (noOpGuard_of_init hinit) (silenceGuard_of_providers hfreq hvol)

/-- The effect of GENERATE with a provider missing: frames of zeros (R102). -/
theorem effectOf_generate_silence {s : State} (hinit : s.regs.init = true)
    (hmissing : s.regs.provFreq = false ∨ s.regs.provVol = false) (outBase : WordIndex)
    (frameCount sampleRate : Int) :
    effectOf (.generate true outBase frameCount sampleRate) s =
      { regs := s.regs
        actions := (List.range (frameTurns frameCount)).flatMap fun k => framePair outBase k fZero } :=
  generateEffect_silence (noOpGuard_of_init hinit) (silenceGuard_iff.2 hmissing)

/-! ### The words written (R43, R102, R112) -/

/-- The output writes of a sequence of frames, offset by offset: offset `j` belongs to frame `j / 2`. -/
theorem writesOf_frames_offsets (outBase : WordIndex) (turns : Nat) (x : Nat → F64) :
    writesOf ((List.range turns).flatMap fun k => framePair outBase k (x k)) =
      (List.range (2 * turns)).map fun j => (sampleIndex outBase j, x (j / 2)) := by
  induction turns with
  | zero => rfl
  | succ n ih =>
    have hright : (2 * n + 1) / 2 = n := by omega
    rw [List.range_succ, List.flatMap_append, writesOf_append, ih, Nat.mul_succ, List.range_succ, List.range_succ]
    simp [writesOf_framePair, hright]

/-- Each word of fewer than 2^31 frames, read after the frames, holds the sample of its frame. -/
theorem readWord_frames (m : Memory) {pre : List PortAction} (hpre : writesOf pre = []) (outBase : WordIndex)
    {turns : Nat} (hturns : turns < 2 ^ 31) (x : Nat → F64) {i j : Nat} (hj : j < 2 * turns)
    (hi : j / 2 = i) :
    Memory.readWord
        (Memory.actAll m (pre ++ (List.range turns).flatMap fun k => framePair outBase k (x k)))
        (sampleIndex outBase j) =
      some (x i) := by
  subst hi
  apply readWord_actAll_of_mem
  · rw [writesOf_append, hpre, List.nil_append, writeIndices_frames]
    exact sampleIndex_nodup outBase hturns
  · rw [writesOf_append, hpre, List.nil_append, writesOf_frames_offsets]
    exact List.mem_map.2 ⟨j, List.mem_range.2 hj, rfl⟩

/-- Settles O29: the effect of the silence path, and its writes read back by `readWord_frames`. -/
theorem generateSilence : Obligations.GenerateSilence := by
  unfold Obligations.GenerateSilence
  intro outBase frameCount sampleRate s hwf hinit hmissing
  have hturns : frameTurns frameCount < 2 ^ 31 := frameTurns_lt (wellFormed_generate.1 hwf).1
  obtain ⟨hresponses, hsamples⟩ := quiet_frames outBase (frameTurns frameCount) fun _ => fZero
  rw [exec_eq_commit, effectOf_generate_silence hinit hmissing]
  refine ⟨_, rfl, rfl, rfl, rfl, rfl, ⟨_, rfl, hsamples, hresponses, ?_⟩, fun j hj => ?_⟩
  · exact writesOf_frames_offsets outBase _ fun _ => fZero
  · exact readWord_frames s.out (pre := []) rfl outBase hturns (fun _ => fZero) hj rfl

/-- Settles O32: the writes of the tone path read back by `readWord_frames`; offsets `2i` and `2i + 1` both belong to frame `i`. -/
theorem generateToneWords : Obligations.GenerateToneWords := by
  unfold Obligations.GenerateToneWords
  intro outBase frameCount sampleRate s hwf hinit hfreq hvol
  have hturns : frameTurns frameCount < 2 ^ 31 := frameTurns_lt (wellFormed_generate.1 hwf).1
  rw [exec_eq_commit, effectOf_generate_tone hinit hfreq hvol]
  refine ⟨_, _, rfl, rfl, ?_⟩
  rintro i hi r rfl
  exact ⟨readWord_frames (j := 2 * i) s.out rfl outBase hturns _ (by omega) (by omega),
    readWord_frames (j := 2 * i + 1) s.out rfl outBase hturns _ (by omega) (by omega)⟩

/-! ### The frame count (R104) -/

theorem frameTurns_of_nonpos {n : Int} (h : n ≤ 0) : frameTurns n = 0 := Int.toNat_of_nonpos h

/-- Without output writes `OUT` stays as it is. -/
theorem actAll_of_no_writes (m : Memory) {actions : List PortAction} (h : writesOf actions = []) :
    Memory.actAll m actions = m := by
  rw [actAll_eq_writes, h, List.foldl_nil]

/-- GENERATE of no frames leaves `S` and writes nothing, on every path. -/
theorem generateEffect_no_frames {n : Int} (h : n ≤ 0) (sin : F64 → F64) (v : Bool) (outBase : WordIndex)
    (sampleRate : Int) (p : Ports) (r : Regs) :
    (generateEffect sin v outBase n sampleRate p r).regs = r ∧
    writesOf (generateEffect sin v outBase n sampleRate p r).actions = [] := by
  have hturns := frameTurns_of_nonpos h
  constructor
  · rw [generateEffect_regs, hturns, Function.iterate_zero_apply, ite_self]
  · obtain ⟨-, heffect⟩ | ⟨-, r', x, pre, heffect, hpre, -⟩ := generateEffect_cases sin v outBase n sampleRate p r
    · rw [heffect, writesOf_nil]
    · rw [heffect, hturns, writesOf_append, hpre]
      rfl

/-- Past the no-op guard GENERATE writes two words a frame (R43, R104). -/
theorem generateEffect_writeCount {v : Bool} {r : Regs} (hguard : noOpGuard v r = false) (sin : F64 → F64)
    (outBase : WordIndex) (frameCount sampleRate : Int) (p : Ports) :
    (writesOf (generateEffect sin v outBase frameCount sampleRate p r).actions).length = 2 * frameTurns frameCount := by
  simpa using congrArg List.length (generateEffect_writeIndices hguard sin outBase frameCount sampleRate p)

/-- Settles O30: no frames by `generateEffect_no_frames`, some by `generateEffect_writeCount`, and the field holds at most 2^31 - 1. -/
theorem frameCountRule : Obligations.FrameCountRule := by
  unfold Obligations.FrameCountRule
  refine ⟨fun v outBase n sampleRate s h => ?_, fun outBase n sampleRate s h hinit => ?_,
    fun v outBase n sampleRate h => ?_⟩
  · obtain ⟨hregs, hwrites⟩ := generateEffect_no_frames h Config.sin v outBase sampleRate s.ports s.regs
    exact ⟨_, exec_eq_commit _ s, hregs, actAll_of_no_writes s.out hwrites, _, commit_trace _ _, hwrites,
      generateEffect_responses _ _ _ _ _ _ _⟩
  · have hcount : (writesOf (effectOf (.generate true outBase n sampleRate) s).actions).length = 2 * frameTurns n :=
      generateEffect_writeCount (noOpGuard_of_init hinit) _ _ _ _ _
    have hturns : (frameTurns n : Int) = n := Int.toNat_of_nonneg h.le
    exact ⟨_, exec_eq_commit _ s, _, commit_trace _ _, by omega⟩
  · have := (wellFormed_generate.1 h).1.2
    omega

/-! ### Outside the fades (R109) -/

/-- Sustain and Idle hold, and keep the counter, for any number of frames. -/
theorem iterate_resting (delta : F64) {r : Regs} (h : r.envelopeState = .sustain ∨ r.envelopeState = .idle)
    (k : Nat) :
    ((frameNext delta)^[k] r).envelopeState = r.envelopeState ∧
    ((frameNext delta)^[k] r).envelopeCounter = r.envelopeCounter := by
  induction k with
  | zero => exact ⟨rfl, rfl⟩
  | succ k ih =>
    obtain ⟨hstate, hcounter⟩ := ih
    obtain ⟨hstate', hcounter'⟩ := frameNext_resting delta (r := (frameNext delta)^[k] r) (by rwa [hstate])
    rw [Function.iterate_succ_apply']
    exact ⟨hstate'.trans hstate, hcounter'.trans hcounter⟩

theorem envelopeValue_sustain {r : Regs} (h : r.envelopeState = .sustain) : envelopeValue r = fOne := by
  unfold envelopeValue; rw [h]

theorem envelopeValue_idle {r : Regs} (h : r.envelopeState = .idle) : envelopeValue r = fZero := by
  unfold envelopeValue; rw [h]

/-- GENERATE keeps Sustain and Idle, and the counter with them. -/
theorem generateEffect_resting {r : Regs} (h : r.envelopeState = .sustain ∨ r.envelopeState = .idle)
    (sin : F64 → F64) (v : Bool) (outBase : WordIndex) (frameCount sampleRate : Int) (p : Ports) :
    (generateEffect sin v outBase frameCount sampleRate p r).regs.envelopeState = r.envelopeState ∧
    (generateEffect sin v outBase frameCount sampleRate p r).regs.envelopeCounter = r.envelopeCounter := by
  rw [generateEffect_regs]
  split
  · exact ⟨rfl, rfl⟩
  · exact iterate_resting _ h _

/-- Settles O40: frames by `iterate_resting`; REG_PROV and IS_ACTIVE leave the envelope alone, GENERATE runs frames. -/
theorem sustainAndIdleHold : Obligations.SustainAndIdleHold := by
  unfold Obligations.SustainAndIdleHold
  refine ⟨fun delta r k h => ?_, fun i s t h hinit htear hset hexec => ?_⟩
  · obtain ⟨hstate, hcounter⟩ := iterate_resting delta h k
    exact ⟨hstate, hcounter, fun hs => envelopeValue_sustain (hstate.trans hs),
      fun hs => envelopeValue_idle (hstate.trans hs)⟩
  · rw [exec_next_iff.1 hexec, commit_regs]
    cases i with
    | init n => exact absurd rfl (hinit n)
    | teardown => exact absurd rfl htear
    | setTx active => exact absurd rfl (hset active)
    | regProv en freq vol => exact ⟨rfl, rfl⟩
    | generate v outBase frameCount sampleRate => exact generateEffect_resting h _ _ _ _ _ _
    | isActive => exact ⟨rfl, rfl⟩

/-! ### The fades (R107, R108) -/

/-- The state a fade ends in; the states outside the fades stay. -/
def EnvelopeState.afterFade : EnvelopeState → EnvelopeState
  | .fadeIn => .sustain
  | .fadeOut => .idle
  | .sustain => .sustain
  | .idle => .idle

theorem nextCounter_toNat {c : Word32} (h : c.toNat + 1 < 2 ^ 32) : (nextCounter c).toNat = c.toNat + 1 := by
  unfold nextCounter
  rw [if_pos h]
  exact BitVec.toNat_add_of_lt h

/-- What the envelope step of a fade leaves: the counter one up, and the state the fade ends in once it is over. -/
theorem envelopeNext_of_fading {r : Regs} (h : r.envelopeState = .fadeIn ∨ r.envelopeState = .fadeOut) :
    (envelopeNext r).envelopeCounter = nextCounter r.envelopeCounter ∧
    (envelopeNext r).envelopeState = if fadeDone r = true then r.envelopeState.afterFade else r.envelopeState := by
  unfold envelopeNext
  rcases h with h | h <;> rw [h] <;> exact ⟨rfl, rfl⟩

/-- One frame of either fade, from any counter the register can increment. -/
theorem frameNext_fading (delta : F64) {r : Regs} (h : r.envelopeState = .fadeIn ∨ r.envelopeState = .fadeOut)
    (hc : r.envelopeCounter.toNat + 1 < 2 ^ 32) :
    (frameNext delta r).envelopeCounter.toNat = r.envelopeCounter.toNat + 1 ∧
    (frameNext delta r).envelopeState =
      if 48 ≤ r.envelopeCounter.toNat + 1 then r.envelopeState.afterFade else r.envelopeState := by
  obtain ⟨hcounter, hstate⟩ := envelopeNext_of_fading h
  constructor
  · rw [frameNext_envelopeCounter, hcounter, nextCounter_toNat hc]
  · rw [frameNext_envelopeState, hstate]
    exact if_congr (fadeDone_iff r) rfl rfl

section Fade
variable (delta : F64) {r : Regs} (hfade : r.envelopeState = .fadeIn ∨ r.envelopeState = .fadeOut)
  (hzero : r.envelopeCounter = 0#32)
include hfade hzero

/-- A fade from counter 0: after `i` of its 48 frames the counter is `i`, and the state is left with the last of them. -/
theorem iterate_fade {i : Nat} (hi : i ≤ 48) :
    ((frameNext delta)^[i] r).envelopeCounter = BitVec.ofNat 32 i ∧
    ((frameNext delta)^[i] r).envelopeState = if i < 48 then r.envelopeState else r.envelopeState.afterFade := by
  induction i with
  | zero => exact ⟨hzero, rfl⟩
  | succ i ih =>
    obtain ⟨hcounter, hstate⟩ := ih (by omega)
    rw [if_pos (by omega)] at hstate
    have hi' : ((frameNext delta)^[i] r).envelopeCounter.toNat = i := by
      rw [hcounter, BitVec.toNat_ofNat]; omega
    obtain ⟨hcounter', hstate'⟩ :=
      frameNext_fading delta (r := (frameNext delta)^[i] r) (by rwa [hstate]) (by omega)
    rw [Function.iterate_succ_apply']
    constructor
    · apply BitVec.eq_of_toNat_eq
      rw [hcounter', hi', BitVec.toNat_ofNat]; omega
    · rw [hstate', hstate, hi']
      split <;> rename_i hlast
      · rw [if_neg (by omega)]
      · rw [if_pos (by omega)]

theorem iterate_fade_during {i : Nat} (hi : i < 48) :
    ((frameNext delta)^[i] r).envelopeState = r.envelopeState ∧
    ((frameNext delta)^[i] r).envelopeCounter = BitVec.ofNat 32 i ∧
    ((frameNext delta)^[i] r).envelopeCounter.toNat = i := by
  obtain ⟨hcounter, hstate⟩ := iterate_fade delta hfade hzero hi.le
  refine ⟨hstate.trans (if_pos hi), hcounter, ?_⟩
  rw [hcounter, BitVec.toNat_ofNat]; omega

/-- From frame 48 on the fade is over and the counter stays 48 (R24). -/
theorem iterate_fade_over {i : Nat} (hi : 48 ≤ i) :
    ((frameNext delta)^[i] r).envelopeState = r.envelopeState.afterFade ∧
    ((frameNext delta)^[i] r).envelopeCounter = 48#32 := by
  obtain ⟨hcounter, hstate⟩ := iterate_fade delta hfade hzero le_rfl
  have hrest : r.envelopeState.afterFade = .sustain ∨ r.envelopeState.afterFade = .idle := by
    rcases hfade with h | h <;> rw [h] <;> decide
  obtain ⟨hstate', hcounter'⟩ :=
    iterate_resting delta (r := (frameNext delta)^[48] r) (by rwa [hstate, if_neg (by omega)]) (i - 48)
  rw [← Function.iterate_add_apply, Nat.sub_add_cancel hi] at hstate' hcounter'
  exact ⟨hstate'.trans hstate, hcounter'.trans hcounter⟩

end Fade

/-! ### The ramp (R107, R108) -/

/-- The quotient of two counts, exact before the rounding (R12). -/
theorem fdiv_i2f {m n : Nat} (hm : m ≤ 2 ^ 53) (hn : n ≤ 2 ^ 53) (hpos : 0 < n) :
    fdiv (i2f m) (i2f n) = pack false (roundMag (m * 2 ^ 1074 * 2 ^ 1074) (n * 2 ^ 1074)) := by
  obtain ⟨a, ha, hafin, haunits⟩ := i2f_natCast hm
  obtain ⟨b, hb, hbfin, hbunits⟩ := i2f_natCast hn
  have ha63 : a < 2 ^ 63 := hafin.trans infMag_lt
  have hb63 : b < 2 ^ 63 := hbfin.trans infMag_lt
  have hbzero : isZero (pack false b) = false := by
    have hunits : unitsOfMag b ≠ 0 := by rw [hbunits]; positivity
    rw [isZero, fMag_pack _ hb63]
    exact decide_eq_false fun h => hunits (unitsOfMag_eq_zero.2 h)
  rw [ha, hb, fdiv_of_finite (isFinite_pack hafin) (isFinite_pack hbfin) hbzero, fSign_pack _ ha63, fSign_pack _ hb63,
    fMag_pack _ ha63, fMag_pack _ hb63, haunits, hbunits]
  rfl

/-- The largest value below 1, in units of 2^-1074. -/
theorem unitsOfMag_fOne_pred : unitsOfMag (fMag fOne - 1) = (2 ^ 53 - 1) * 2 ^ 1021 := by
  have hfields : fMag fOne - 1 = 1021 * 2 ^ 52 + (2 ^ 53 - 1) := by decide
  rw [hfields, unitsOfMag_shift (by decide) (by decide)]

/-- A ramp stays below full level: `i / 48` for `i < 48` rounds to no more than the largest value below 1. -/
theorem ramp_lt_one {i : Nat} (hi : i < 48) :
    isFinite (fdiv (i2f i) (i2f 48)) = true ∧ units (fdiv (i2f i) (i2f 48)) < units fOne := by
  have hquot : fdiv (i2f i) (i2f 48) = pack false (roundMag (i * 2 ^ 1074 * 2 ^ 1074) (48 * 2 ^ 1074)) :=
    fdiv_i2f (n := 48) (by omega) (by decide) (by decide)
  have hround : roundMag (i * 2 ^ 1074 * 2 ^ 1074) (48 * 2 ^ 1074) ≤ fMag fOne - 1 := by
    apply roundMag_le_of_le (by positivity) (by decide)
    have hsplit : 2 ^ 1074 = 2 ^ 53 * 2 ^ 1021 := pow_add 2 53 1021
    calc i * 2 ^ 1074 * 2 ^ 1074 = i * 2 ^ 53 * (2 ^ 1021 * 2 ^ 1074) := by rw [hsplit, mul_assoc, mul_assoc, mul_assoc]
      _ ≤ (2 ^ 53 - 1) * 48 * (2 ^ 1021 * 2 ^ 1074) := Nat.mul_le_mul_right _ (by omega)
      _ = unitsOfMag (fMag fOne - 1) * (48 * 2 ^ 1074) := by rw [unitsOfMag_fOne_pred]; ring
  have hbelow : roundMag (i * 2 ^ 1074 * 2 ^ 1074) (48 * 2 ^ 1074) < fMag fOne :=
    Nat.lt_of_le_pred (by decide) hround
  have hone : units fOne = unitsOfMag (fMag fOne) := rfl
  rw [hquot, units_pack _ (roundMag_lt _ _), if_neg Bool.false_ne_true, hone]
  exact ⟨isFinite_pack (hbelow.trans (by decide)), Int.ofNat_lt.2 (unitsOfMag_strictMono hbelow)⟩

/-- The difference of two values that differ does not round to zero: it is at least one unit. -/
theorem isZero_fsub_of_ne {x y : F64} (hx : isFinite x = true) (hy : isFinite y = true) (h : units x ≠ units y) :
    isZero (fsub x y) = false := by
  have hdiff : units x - units y ≠ 0 := sub_ne_zero.2 h
  have hround : 1 ≤ roundMag (units x - units y).natAbs 1 :=
    le_roundMag_of_le one_pos (by decide) (by rw [mul_one]; exact Int.natAbs_pos.2 hdiff)
  rw [fsub_of_finite hx hy, roundUnits, if_neg hdiff, isZero, fMag_pack _ (roundMag_lt _ _)]
  exact decide_eq_false (by omega)

/-- The levels R107 and R108 give by name: the ramp at frames 0, 46 and 47, and what a fade-out makes of them. -/
theorem ramp_values :
    fdiv (i2f (0 : Nat)) (i2f 48) = fZero ∧ fdiv (i2f (46 : Nat)) (i2f 48) = 0x3FEEAAAAAAAAAAAB#64 ∧
    fdiv (i2f (47 : Nat)) (i2f 48) = 0x3FEF555555555555#64 ∧ fsub fOne fZero = fOne ∧
    fsub fOne 0x3FEEAAAAAAAAAAAB#64 = 0x3FA5555555555550#64 ∧
    fsub fOne 0x3FEF555555555555#64 = 0x3F95555555555560#64 := by decide +kernel

/-- Settles O38: the state and counter by `iterate_fade_during` and `iterate_fade_over`, the level by `envelopeValue_fadeIn`. -/
theorem fadeInRamp : Obligations.FadeInRamp := by
  unfold Obligations.FadeInRamp
  obtain ⟨hfirst, -, hlast, -⟩ := ramp_values
  refine ⟨fun delta r hs hc => ?_, fun delta r hs hzero => ?_⟩
  · obtain ⟨hcounter, hstate⟩ := frameNext_fading delta (.inl hs) hc
    rw [hs] at hstate
    exact ⟨envelopeValue_fadeIn hs rfl, hcounter, hstate⟩
  · have hduring : ∀ i < 48, ((frameNext delta)^[i] r).envelopeState = .fadeIn ∧
        ((frameNext delta)^[i] r).envelopeCounter = BitVec.ofNat 32 i ∧
        envelopeValue ((frameNext delta)^[i] r) = fdiv (i2f i) (i2f 48) := fun i hi => by
      obtain ⟨hstate, hcounter, hnat⟩ := iterate_fade_during delta (.inl hs) hzero hi
      exact ⟨hstate.trans hs, hcounter, envelopeValue_fadeIn (hstate.trans hs) hnat⟩
    refine ⟨fun i hi => ?_, ?_, ?_, fun i hi => ?_⟩
    · obtain ⟨hstate, hcounter, hvalue⟩ := hduring i hi
      have hne : envelopeValue ((frameNext delta)^[i] r) ≠ fOne := fun hone =>
        (ramp_lt_one hi).2.ne (congrArg units (hvalue.symm.trans hone))
      exact ⟨hvalue, hne, hstate, hcounter⟩
    · obtain ⟨-, -, hvalue⟩ := hduring 0 (by omega)
      exact hvalue.trans hfirst
    · obtain ⟨-, -, hvalue⟩ := hduring 47 (by omega)
      exact hvalue.trans hlast
    · obtain ⟨hstate, hcounter⟩ := iterate_fade_over delta (.inl hs) hzero hi
      rw [hs] at hstate
      exact ⟨envelopeValue_sustain hstate, hstate, hcounter⟩

/-- Settles O39: as the fade-in, with the level by `envelopeValue_fadeOut`, which forces the last frame to zero. -/
theorem fadeOutRamp : Obligations.FadeOutRamp := by
  unfold Obligations.FadeOutRamp
  obtain ⟨hq0, hq46, hq47, h0, h46, h47⟩ := ramp_values
  refine ⟨fun delta r hs hc => ?_, fun delta r hs hzero => ?_⟩
  · obtain ⟨hcounter, hstate⟩ := frameNext_fading delta (.inr hs) hc
    rw [hs] at hstate
    exact ⟨envelopeValue_fadeOut hs rfl, hcounter, hstate⟩
  · have hduring : ∀ i < 48, ((frameNext delta)^[i] r).envelopeState = .fadeOut ∧
        ((frameNext delta)^[i] r).envelopeCounter = BitVec.ofNat 32 i ∧
        envelopeValue ((frameNext delta)^[i] r) =
          if 48 ≤ i + 1 then fZero else fsub fOne (fdiv (i2f i) (i2f 48)) := fun i hi => by
      obtain ⟨hstate, hcounter, hnat⟩ := iterate_fade_during delta (.inr hs) hzero hi
      exact ⟨hstate.trans hs, hcounter, envelopeValue_fadeOut (hstate.trans hs) hnat⟩
    have hlevel : ∀ i < 47, envelopeValue ((frameNext delta)^[i] r) = fsub fOne (fdiv (i2f i) (i2f 48)) :=
        fun i hi => by
      obtain ⟨-, -, hvalue⟩ := hduring i (by omega)
      exact hvalue.trans (if_neg (by omega))
    refine ⟨fun i hi => ⟨hlevel i hi, ?_⟩, fun i hi => ?_, ?_, ?_, ?_, hq47 ▸ h47, fun i hi => ?_⟩
    · rw [hlevel i hi]
      obtain ⟨hfinite, hlt⟩ := ramp_lt_one (i := i) (by omega)
      exact isZero_fsub_of_ne (by decide) hfinite hlt.ne'
    · obtain ⟨hstate, hcounter, -⟩ := hduring i hi
      exact ⟨hstate, hcounter⟩
    · exact (hlevel 0 (by omega)).trans (hq0 ▸ h0)
    · exact (hlevel 46 (by omega)).trans (hq46 ▸ h46)
    · obtain ⟨-, -, hvalue⟩ := hduring 47 (by omega)
      exact hvalue.trans (if_pos (by omega))
    · obtain ⟨hstate, hcounter⟩ := iterate_fade_over delta (.inr hs) hzero hi
      rw [hs] at hstate
      exact ⟨envelopeValue_idle hstate, hstate, hcounter⟩

/-! ### The sample rate (R106) -/

/-- The envelope after GENERATE does not depend on the sample rate, the ports or the sine unit. -/
theorem generateEffect_envelope_congr (sin sin' : F64 → F64) (v : Bool) (outBase : WordIndex)
    (frameCount sampleRate sampleRate' : Int) (p p' : Ports) (r : Regs) :
    (generateEffect sin' v outBase frameCount sampleRate' p' r).regs.envelopeState =
        (generateEffect sin v outBase frameCount sampleRate p r).regs.envelopeState ∧
    (generateEffect sin' v outBase frameCount sampleRate' p' r).regs.envelopeCounter =
        (generateEffect sin v outBase frameCount sampleRate p r).regs.envelopeCounter := by
  rw [generateEffect_regs, generateEffect_regs]
  split
  · exact ⟨rfl, rfl⟩
  · exact iterate_envelope_congr _ _ rfl rfl _

/-- The sample rate enters GENERATE through the phase increment alone. -/
theorem generateEffect_congr_increment {sampleRate sampleRate' : Int} {p : Ports}
    (h : phaseIncrement (sampledFreq p) sampleRate' = phaseIncrement (sampledFreq p) sampleRate) (sin : F64 → F64)
    (v : Bool) (outBase : WordIndex) (frameCount : Int) (r : Regs) :
    generateEffect sin v outBase frameCount sampleRate' p r =
      generateEffect sin v outBase frameCount sampleRate p r := by
  unfold generateEffect
  rw [h]

/-- Settles O41: the envelope runs on its own, and GENERATE reads the rate in the increment only. -/
theorem fadeLengthIndependentOfRate : Obligations.FadeLengthIndependentOfRate := by
  unfold Obligations.FadeLengthIndependentOfRate
  refine ⟨fun _ => rfl, fun freq freq' rate rate' r k => ?_, fun v outBase n rate rate' s t t' p h h' => ?_,
    fun v outBase n rate rate' s h => ?_⟩
  · obtain ⟨hstate, hcounter⟩ :=
      iterate_envelope_congr (phaseIncrement freq rate) (phaseIncrement freq' rate') (r := r) rfl rfl k
    exact envelopeValue_congr hstate hcounter
  · rw [exec_next_iff.1 h, exec_next_iff.1 h']
    exact generateEffect_envelope_congr _ _ _ _ _ _ _ _ _ _
  · have heffect : effectOf (.generate v outBase n rate') s = effectOf (.generate v outBase n rate) s :=
      generateEffect_congr_increment h _ _ _ _ _
    rw [exec_eq_commit, exec_eq_commit, heffect]

/-! ### The phase (R111, R114) -/

theorem phaseStep_of_ge {delta p : F64} (h : fge (fadd p delta) Config.twoPi = true) :
    phaseStep delta p = fsub (fadd p delta) Config.twoPi :=
  if_pos h

theorem phaseStep_of_not_ge {delta p : F64} (h : fge (fadd p delta) Config.twoPi = false) :
    phaseStep delta p = fadd p delta :=
  if_neg (by rw [h]; exact Bool.false_ne_true)

theorem fge_self {x : F64} (h : isFinite x = true) : fge x x = true := (fge_iff h h).2 le_rfl

/-- A finite value less itself is positive zero, whatever its sign. -/
theorem fsub_self {x : F64} (h : isFinite x = true) : fsub x x = fZero := by
  rw [fsub_of_finite h h, sub_self, Bool.and_not_self]
  rfl

/-- Settles O43: the two branches of the step, and `iterate_phase` on the tone path. -/
theorem phaseAdvance : Obligations.PhaseAdvance := by
  unfold Obligations.PhaseAdvance
  refine ⟨fun _ _ => phaseStep_of_ge, fun _ _ => phaseStep_of_not_ge, fun delta p h => ?_,
    fun outBase n rate s hinit hfreq hvol => ⟨_, exec_eq_commit _ s, ?_⟩⟩
  · have hge : fge (fadd p delta) Config.twoPi = true := by rw [h]; exact fge_self isFinite_twoPi
    rw [phaseStep_of_ge hge, h, fsub_self isFinite_twoPi]
  · rw [commit_regs, effectOf_generate_tone hinit hfreq hvol]
    exact iterate_phase _ _ _

/-- Settles O51: the phase after `k` frames is a function of the phase before them. -/
theorem phaseAdvancesInEveryState : Obligations.PhaseAdvancesInEveryState := by
  unfold Obligations.PhaseAdvancesInEveryState
  intro delta r q k h
  refine ⟨iterate_phase delta r k, ?_⟩
  rw [iterate_phase, iterate_phase, h]

end Sys2Proof.Machine
end

section
/-! PROOFS of the family 43_activity_query.md. IS_ACTIVE performs no write and keeps `S`, so what it does is its port actions
(`exec_isActive`), a function of three bits (`isActiveEffect_actions_congr`). SET_TX sets `transmit_active` and nothing else that the
query reads; GENERATE keeps all of it. -/

namespace Sys2Proof.Machine

/-! ### What IS_ACTIVE does (R130, R132) -/

theorem isActiveEffect_actions_of_absent {r : Regs} (h : r.provEn = false) (p : Ports) :
    (isActiveEffect p r).actions = [.respond false] := by
  simp [isActiveEffect, enabledAnswer, h]

theorem isActiveEffect_actions_of_registered {r : Regs} (h : r.provEn = true) (p : Ports) :
    (isActiveEffect p r).actions = [.sample (.en p.pEn), .respond (r.transmitActive && p.pEn)] := by
  simp [isActiveEffect, enabledAnswer, h]

theorem isActiveEffect_writes (p : Ports) (r : Regs) : writesOf (isActiveEffect p r).actions = [] := by
  rcases h : r.provEn with _ | _
  · rw [isActiveEffect_actions_of_absent h]; rfl
  · rw [isActiveEffect_actions_of_registered h]; rfl

/-- An effect without output writes changes `S` and the record alone. -/
theorem commit_of_no_writes {e : Effect} (s : State) (h : writesOf e.actions = []) :
    s.commit e = { s with regs := e.regs, trace := s.trace ++ e.actions } := by
  rw [State.commit, State.perform, actAll_of_no_writes s.out h]

/-- IS_ACTIVE adds to the record and changes nothing else (R130). -/
theorem exec_isActive (s : State) :
    exec .isActive s = .next { s with trace := s.trace ++ (isActiveEffect s.ports s.regs).actions } :=
  congrArg Host.Outcome.next (commit_of_no_writes s (isActiveEffect_writes s.ports s.regs))

/-- Settles O24: the encoder's row, and the effect with `P_EN`'s provider absent and registered. -/
theorem isActiveResult : Obligations.IsActiveResult := by
  unfold Obligations.IsActiveResult
  refine ⟨?_, fun s => ?_⟩
  · rw [encode, flagField_none]
  · rw [exec_isActive]
    rcases h : s.regs.provEn with _ | _
    · rw [isActiveEffect_actions_of_absent h, if_pos rfl]
    · rw [isActiveEffect_actions_of_registered h, if_neg (by decide)]

theorem enabledAnswer_of_absent {r : Regs} (h : r.provEn = false) (p : Ports) : enabledAnswer r p = false := by
  rw [enabledAnswer, h, Bool.false_and]

theorem enabledAnswer_of_registered {r : Regs} (h : r.provEn = true) (p : Ports) : enabledAnswer r p = p.pEn := by
  rw [enabledAnswer, h, Bool.true_and]

/-- Settles O25: the one response, with the answer of an absent and of a registered provider. -/
theorem missingEnabledProviderAnswersFalse : Obligations.MissingEnabledProviderAnswersFalse := by
  unfold Obligations.MissingEnabledProviderAnswersFalse
  refine fun s => ⟨_, exec_isActive s, _, rfl, fun h => ?_, fun h => ?_⟩
  · rw [isActiveEffect_responses, enabledAnswer_of_absent h, Bool.and_false]
  · rw [isActiveEffect_responses, enabledAnswer_of_registered h, Bool.decide_and, Bool.decide_eq_true,
      Bool.decide_eq_true]

/-! ### What the response depends on (R131) -/

/-- The query reads `transmit_active`, `prov_en` and `P_EN`, and nothing else. -/
theorem isActiveEffect_actions_congr {p q : Ports} {r u : Regs} (htransmit : r.transmitActive = u.transmitActive)
    (hprov : r.provEn = u.provEn) (hport : p.pEn = q.pEn) :
    (isActiveEffect p r).actions = (isActiveEffect q u).actions := by
  simp only [isActiveEffect, enabledAnswer, htransmit, hprov, hport]

/-- With `transmit_active` = 0 the response is 0, whatever the provider says (the truth table of R132). -/
theorem isActiveEffect_responses_of_unkeyed {r : Regs} (h : r.transmitActive = false) (p : Ports) :
    responsesOf (isActiveEffect p r).actions = [false] := by
  rw [isActiveEffect_responses, h, Bool.false_and]

/-- With the enabled provider answering true the response is `transmit_active`. -/
theorem isActiveEffect_responses_of_enabled {p : Ports} {r : Regs} (hprov : r.provEn = true) (hport : p.pEn = true) :
    responsesOf (isActiveEffect p r).actions = [r.transmitActive] := by
  rw [isActiveEffect_responses, enabledAnswer_of_registered hprov, hport, Bool.and_true]

/-- SET_TX keeps the provider flag. -/
theorem setTxEffect_provEn (active : Bool) (r : Regs) : (setTxEffect active r).regs.provEn = r.provEn := by
  by_cases h : active = r.transmitActive
  · rw [setTxEffect_regs_of_eq h]
  · rw [setTxEffect_regs_of_ne h]
    cases active <;> rfl

/-- GENERATE keeps what the query reads of `S`, on every path. -/
theorem generateEffect_queried (sin : F64 → F64) (v : Bool) (outBase : WordIndex) (frameCount sampleRate : Int)
    (p : Ports) (r : Regs) :
    (generateEffect sin v outBase frameCount sampleRate p r).regs.transmitActive = r.transmitActive ∧
    (generateEffect sin v outBase frameCount sampleRate p r).regs.provEn = r.provEn := by
  rw [generateEffect_regs]
  split
  · exact ⟨rfl, rfl⟩
  · obtain ⟨htransmit, -, hprov, -⟩ :=
      iterate_frame (phaseIncrement (sampledFreq p) sampleRate) r (frameTurns frameCount)
    exact ⟨htransmit, hprov⟩

/-- After SET_TX, and after a GENERATE that follows it, the query reads the operand and the provider as before. -/
theorem queried_after_setTx {active v : Bool} {outBase : WordIndex} {frameCount sampleRate : Int} {s t u : State}
    (hset : exec (.setTx active) s = .next t)
    (hu : u = t ∨ exec (.generate v outBase frameCount sampleRate) t = .next u) :
    u.regs.transmitActive = active ∧ u.regs.provEn = s.regs.provEn ∧ u.ports = s.ports := by
  have hactive := exec_setTx_transmitActive hset
  obtain rfl := exec_next_iff.1 hset
  have hprov := setTxEffect_provEn active s.regs
  obtain rfl | hgen := hu
  · exact ⟨hactive, hprov, rfl⟩
  · obtain rfl := exec_next_iff.1 hgen
    obtain ⟨htransmit', hprov'⟩ := generateEffect_queried Config.sin v outBase frameCount sampleRate s.ports
      (setTxEffect active s.regs).regs
    exact ⟨htransmit'.trans hactive, hprov'.trans hprov, rfl⟩

/-- Reset, INIT and TEARDOWN leave `transmit_active` = 0 (R38, R80, R81). -/
theorem transmitActive_of_cleared {s t : State}
    (h : s.regs = State.reset.regs ∨ (∃ n, exec (.init n) t = .next s) ∨ exec .teardown t = .next s) :
    s.regs.transmitActive = false := by
  obtain hreset | ⟨n, hinit⟩ | hteardown := h
  · rw [hreset]; rfl
  · rw [exec_next_iff.1 hinit]; rfl
  · rw [exec_next_iff.1 hteardown]; rfl

/-- Settles O26: what the query reads, and what SET_TX, GENERATE and the three clearing events leave there. -/
theorem isActiveIgnoresEnvelope : Obligations.IsActiveIgnoresEnvelope := by
  unfold Obligations.IsActiveIgnoresEnvelope
  refine ⟨fun s u s' u' htransmit hprov hport hs hu => ?_,
    fun active v outBase frameCount sampleRate s t u hprov hport hset hgen => ?_, fun s t u hcleared hu => ?_⟩
  · rw [exec_next_iff.1 hs, exec_next_iff.1 hu]
    exact ⟨(isActiveEffect s.ports s.regs).actions, rfl,
      congrArg (u.trace ++ ·) (isActiveEffect_actions_congr htransmit hprov hport).symm⟩
  · obtain ⟨htransmit, hprov', hports⟩ := queried_after_setTx hset hgen
    refine ⟨_, _, exec_isActive u, rfl, ?_⟩
    rw [isActiveEffect_responses_of_enabled (hprov'.trans hprov) (by rw [hports, hport]), htransmit]
  · rw [exec_next_iff.1 hu]
    exact ⟨_, commit_trace _ _, isActiveEffect_responses_of_unkeyed (transmitActive_of_cleared hcleared) _⟩

end Sys2Proof.Machine
end

section
/-! PROOFS of the family other, encoding (30_encoding.md). A word decodes to an instruction exactly when it hits the row of the
instruction and holds its operands in their fields (`decode_ok_iff`). Both directions of the round trip are read off that: an
encoding hits its own row, and a row with the operands gives every field of the word. -/

namespace Sys2Proof

/-! ### The opcode map (R64) -/

/-- A word that hits a row has the opcode of the row: every mask covers the opcode field. -/
theorem opc_of_hits {r : OpcodeRow} {w : CmdWord} (hr : r ∈ opcodeRows) (h : r.hits w = true) :
    w.opc = r.pattern.opc := by
  have hmask : ∀ q ∈ opcodeRows, q.mask.opc = 0xFF#8 := by decide
  have hpattern : w &&& r.mask = r.pattern := beq_iff_eq.1 h
  calc w.opc = w.opc &&& r.mask.opc := by rw [hmask r hr, and_ones8]
    _ = (w &&& r.mask).opc := BitVec.extractLsb'_and.symm
    _ = r.pattern.opc := by rw [hpattern]

/-- The six rows have six opcodes. -/
theorem row_eq_of_opc : ∀ r ∈ opcodeRows, ∀ q ∈ opcodeRows, r.pattern.opc = q.pattern.opc → r = q := by decide

/-- Settles O3: a word has one opcode, and the rows differ in theirs. -/
theorem opcodeRowsDisjoint : Obligations.OpcodeRowsDisjoint := by
  unfold Obligations.OpcodeRowsDisjoint
  exact fun w r hr q hq hrw hqw => row_eq_of_opc r hr q hq ((opc_of_hits hr hrw).symm.trans (opc_of_hits hq hqw))

/-! ### Decoding, by row and operands (R62, R70) -/

open Laws.RowHit (rowOf)

/-- The operands of an instruction are what its fields of this word hold (R62, R63). -/
def Instr.OperandsIn (w : CmdWord) : Instr → Prop
  | .init n => n = s32 w.a
  | .teardown => True
  | .setTx active => active = w.flg.getLsbD 0
  | .regProv en freq vol => en = w.flg.getLsbD 0 ∧ freq = w.flg.getLsbD 1 ∧ vol = w.flg.getLsbD 2
  | .generate v outBase n rate => v = w.flg.getLsbD 0 ∧ outBase = w.a ∧ n = s32 w.b ∧ rate = s32 w.c
  | .isActive => True

/-- The decoder reads an instruction exactly from the words that hit its row, with the operands in their fields. -/
theorem decode_ok_iff {w : CmdWord} {i : Instr} :
    decode w = .ok i ↔ (rowOf i).hits w = true ∧ i.OperandsIn w := by
  have flag0 : w.getLsbD 96 = w.flg.getLsbD 0 := getLsbD_flg w (k := 0) (by decide)
  have flag1 : w.getLsbD 97 = w.flg.getLsbD 1 := getLsbD_flg w (k := 1) (by decide)
  have flag2 : w.getLsbD 98 = w.flg.getLsbD 2 := getLsbD_flg w (k := 2) (by decide)
  constructor
  · intro h
    unfold decode at h
    split at h
    · cases h; exact ⟨‹_›, rfl⟩
    split at h
    · cases h; exact ⟨‹_›, trivial⟩
    split at h
    · cases h; exact ⟨‹_›, flag0⟩
    split at h
    · cases h; exact ⟨‹_›, flag0, flag1, flag2⟩
    split at h
    · cases h; exact ⟨‹_›, flag0, rfl, rfl, rfl⟩
    split at h
    · cases h; exact ⟨‹_›, trivial⟩
    · cases h
  · rintro ⟨hrow, hops⟩
    -- The rows tried before the instruction's own have another opcode.
    cases i with
    | init n =>
      obtain rfl := hops
      exact if_pos hrow
    | teardown =>
      have hfields := (rowTeardown_hits w).1 hrow
      simp [decode, rowInit_hits, rowTeardown_hits, hfields]
    | setTx active =>
      obtain rfl := hops
      have hfields := (rowSetTx_hits w).1 hrow
      rw [← flag0]
      simp [decode, rowInit_hits, rowTeardown_hits, rowSetTx_hits, hfields]
    | regProv en freq vol =>
      obtain ⟨rfl, rfl, rfl⟩ := hops
      have hfields := (rowRegProv_hits w).1 hrow
      rw [← flag0, ← flag1, ← flag2]
      simp [decode, rowInit_hits, rowTeardown_hits, rowSetTx_hits, rowRegProv_hits, hfields]
    | generate v outBase n rate =>
      obtain ⟨rfl, rfl, rfl, rfl⟩ := hops
      have hfields := (rowGenerate_hits w).1 hrow
      rw [← flag0]
      simp [decode, rowInit_hits, rowTeardown_hits, rowSetTx_hits, rowRegProv_hits, rowGenerate_hits, hfields]
    | isActive =>
      have hfields := (rowIsActive_hits w).1 hrow
      simp [decode, rowInit_hits, rowTeardown_hits, rowSetTx_hits, rowRegProv_hits, rowGenerate_hits, rowIsActive_hits,
        hfields]

/-! ### Encoding (R62) -/

theorem encode_hits (i : Instr) : (rowOf i).hits (encode i) = true := by
  cases i with
  | init n => exact Laws.RowHit.init n
  | teardown => exact Laws.RowHit.teardown
  | setTx active => exact Laws.RowHit.setTx active
  | regProv en freq vol => exact Laws.RowHit.regProv en freq vol
  | generate v outBase n rate => exact Laws.RowHit.generate v outBase n rate
  | isActive => exact Laws.RowHit.isActive

/-- The bits of a flag field are the flags it is made of (R62). -/
theorem getLsbD_flagField (f3 f2 f1 f0 : Bool) :
    (flagField f3 f2 f1 f0).getLsbD 0 = f0 ∧ (flagField f3 f2 f1 f0).getLsbD 1 = f1 ∧
    (flagField f3 f2 f1 f0).getLsbD 2 = f2 := by
  revert f3 f2 f1 f0; decide

/-- The encoding holds the operands in their fields, where these are wide enough for them. -/
theorem operandsIn_encode {i : Instr} (h : WellFormed i) : i.OperandsIn (encode i) := by
  cases i with
  | init n =>
    rw [Instr.OperandsIn, encode, packCW_eq_join, a_join, s32_field32 (wellFormed_init.1 h)]
  | teardown => trivial
  | setTx active =>
    rw [Instr.OperandsIn, encode, packCW_eq_join, flg_join, (getLsbD_flagField _ _ _ _).1]
  | regProv en freq vol =>
    obtain ⟨h0, h1, h2⟩ := getLsbD_flagField false vol freq en
    rw [Instr.OperandsIn, encode, packCW_eq_join, flg_join, h0, h1, h2]
    exact ⟨rfl, rfl, rfl⟩
  | generate v outBase n rate =>
    obtain ⟨hn, hrate⟩ := wellFormed_generate.1 h
    rw [Instr.OperandsIn, encode, packCW_eq_join, flg_join, a_join, b_join, c_join, (getLsbD_flagField _ _ _ _).1,
      s32_field32 hn, s32_field32 hrate]
    exact ⟨rfl, rfl, rfl, rfl⟩
  | isActive => trivial

/-- Settles O1: an encoding hits its row and holds the operands, which is what the decoder asks. -/
theorem decodeOfEncode : Obligations.DecodeOfEncode := by
  unfold Obligations.DecodeOfEncode
  exact fun i h => decode_ok_iff.2 ⟨encode_hits i, operandsIn_encode h⟩

/-! ### From the row and the operands back to the word -/

/-- A flag field with the bits a row masks at zero is made of its other bits (R62). -/
theorem flagField_of_masked (x : BitVec 4) :
    (x &&& 0xE#4 = 0#4 → flagField false false false (x.getLsbD 0) = x) ∧
    (x &&& 0x8#4 = 0#4 → flagField false (x.getLsbD 2) (x.getLsbD 1) (x.getLsbD 0) = x) := by
  revert x; decide

/-- Operands read from 32-bit fields are in range (R63). -/
theorem wellFormed_of_operandsIn {w : CmdWord} {i : Instr} (h : i.OperandsIn w) : WellFormed i := by
  cases i with
  | init n =>
    obtain rfl := h
    exact wellFormed_init.2 (inS32_s32 _)
  | teardown => rfl
  | setTx active => rfl
  | regProv en freq vol => rfl
  | generate v outBase n rate =>
    obtain ⟨-, -, rfl, rfl⟩ := h
    exact wellFormed_generate.2 ⟨inS32_s32 _, inS32_s32 _⟩
  | isActive => rfl

/-- A row and the operands fix every field of the word: the encoding's. -/
theorem encode_of_hits {w : CmdWord} {i : Instr} (hrow : (rowOf i).hits w = true) (hops : i.OperandsIn w) :
    encode i = w := by
  obtain ⟨hmask3, hmask1⟩ := flagField_of_masked w.flg
  rw [← join_fields w]
  cases i with
  | init n =>
    obtain ⟨hopc, hrsv, hflg, hb, hc⟩ := (rowInit_hits w).1 hrow
    obtain rfl := hops
    rw [encode, packCW_eq_join, field32_s32, Machine.flagField_none, hopc, hrsv, hflg, hb, hc]
  | teardown =>
    obtain ⟨hopc, hrsv, hflg, ha, hb, hc⟩ := (rowTeardown_hits w).1 hrow
    rw [encode, packCW_eq_join, Machine.flagField_none, hopc, hrsv, hflg, ha, hb, hc]
  | setTx active =>
    obtain ⟨hopc, hrsv, hflg, ha, hb, hc⟩ := (rowSetTx_hits w).1 hrow
    obtain rfl := hops
    rw [encode, packCW_eq_join, hmask3 hflg, hopc, hrsv, ha, hb, hc]
  | regProv en freq vol =>
    obtain ⟨hopc, hrsv, hflg, ha, hb, hc⟩ := (rowRegProv_hits w).1 hrow
    obtain ⟨rfl, rfl, rfl⟩ := hops
    rw [encode, packCW_eq_join, hmask1 hflg, hopc, hrsv, ha, hb, hc]
  | generate v outBase n rate =>
    obtain ⟨hopc, hrsv, hflg⟩ := (rowGenerate_hits w).1 hrow
    obtain ⟨rfl, rfl, rfl, rfl⟩ := hops
    rw [encode, packCW_eq_join, field32_s32, field32_s32, hmask3 hflg, hopc, hrsv]
  | isActive =>
    obtain ⟨hopc, hrsv, hflg, ha, hb, hc⟩ := (rowIsActive_hits w).1 hrow
    rw [encode, packCW_eq_join, Machine.flagField_none, hopc, hrsv, hflg, ha, hb, hc]

/-- Settles O2: a decoded word hits the row and holds the operands, which fix all its fields. -/
theorem encodeOfDecode : Obligations.EncodeOfDecode := by
  unfold Obligations.EncodeOfDecode
  intro w i h
  obtain ⟨hrow, hops⟩ := decode_ok_iff.1 h
  exact ⟨encode_of_hits hrow hops, wellFormed_of_operandsIn hops⟩

/-- Settles O5: the decoder run on seven fixed words. -/
theorem writtenWordsDecode : Obligations.WrittenWordsDecode := by
  unfold Obligations.WrittenWordsDecode
  decide

end Sys2Proof
end

section
/-! PROOFS of the family other, steps and invariants (10_state.md R37, 20_memory.md, 70_reset_and_hazards.md). Every step adds
port actions to the record and does their writes to `OUT` (`step_actions`), and it leaves `S` as it was, at the reset values, or as
a command makes it (`step_regs`). The statements over all steps are read off these two. -/

namespace Sys2Proof.Machine

/-! ### The steps, event by event -/

/-- Settles O6: the next event is a command, and its word decodes. -/
theorem stepRunsDecodedCommand : Obligations.StepRunsDecodedCommand := by
  unfold Obligations.StepRunsDecodedCommand
  exact fun s w i rest hp hd => (step_cons hp).trans (acceptWord_of_decode hd _)

/-- Settles O7: three events, each by the equation of `step` on it. -/
theorem stepWithoutCommand : Obligations.StepWithoutCommand := by
  unfold Obligations.StepWithoutCommand
  exact ⟨fun _ => step_nil, fun _ _ _ => step_cons, fun _ _ _ => step_cons⟩

theorem acceptWord_completes (w : CmdWord) (s : State) : ∃ t, acceptWord w s = .next t := by
  rcases hd : decode w with e | i
  · exact ⟨s, acceptWord_of_reserved hd s⟩
  · exact ⟨_, (acceptWord_of_decode hd s).trans (exec_eq_commit i s)⟩

theorem runEvent_completes (e : HostEvent) (s : State) : ∃ t, runEvent e s = .next t := by
  cases e with
  | command w => exact acceptWord_completes w s
  | drive p => exact ⟨_, rfl⟩
  | rst => exact ⟨_, rfl⟩
  | commandCutByRst w done => exact ⟨_, rfl⟩
  | setAllocOk ok => exact ⟨_, rfl⟩

/-- Settles O8: the idle step completes, and every event does. -/
theorem everyStepCompletes : Obligations.EveryStepCompletes := by
  unfold Obligations.EveryStepCompletes StepCompletes
  intro s
  rcases hp : s.pending with _ | ⟨e, rest⟩
  · exact ⟨s, step_nil hp⟩
  · obtain ⟨t, ht⟩ := runEvent_completes e { s with pending := rest }
    exact ⟨t, (step_cons hp).trans ht⟩

theorem step_commandCutByRst {s : State} {w : CmdWord} {done : Nat} {rest : List HostEvent}
    (hp : s.pending = .commandCutByRst w done :: rest) :
    step s = .next (acceptWordCut w done { s with pending := rest }) :=
  step_cons hp

/-- Settles O9: `rst` alone is `assertRst`; inside a command it is `cutByRst` of the command's effect, the one `exec` commits. -/
theorem rstResult : Obligations.RstResult := by
  unfold Obligations.RstResult
  refine ⟨fun s rest hp => step_rst hp, fun s w i done rest hp hd => ?_, fun s w e done rest hp hd => ?_⟩
  · rw [step_commandCutByRst hp, acceptWordCut_of_decode hd]
    exact ⟨_, _, _, exec_eq_commit i _, rfl, rfl, rfl, rfl, rfl, rfl, rfl, rfl⟩
  · rw [step_commandCutByRst hp, acceptWordCut_of_reserved hd]
    rfl

/-! ### What a step does to `OUT` (R40, R51) -/

/-- Every step adds port actions at the end of the record, and `OUT` takes their writes. -/
theorem step_actions {s t : State} (h : step s = .next t) :
    ∃ actions, t.trace = s.trace ++ actions ∧ t.out = Memory.actAll s.out actions := by
  have quiet : s.trace = s.trace ++ [] ∧ s.out = Memory.actAll s.out [] := ⟨(List.append_nil _).symm, rfl⟩
  obtain ⟨-, rfl⟩ | ⟨w, i, rest, -, -, rfl⟩ | ⟨w, e, rest, -, -, rfl⟩ | ⟨p, rest, -, rfl⟩ | ⟨rest, -, rfl⟩ |
    ⟨w, done, i, rest, -, -, rfl⟩ | ⟨w, done, e, rest, -, -, rfl⟩ | ⟨ok, rest, -, rfl⟩ := step_cases h
  · exact ⟨[], quiet⟩
  · exact ⟨_, commit_trace _ _, commit_out _ _⟩
  · exact ⟨[], quiet⟩
  · exact ⟨[], quiet⟩
  · exact ⟨[], quiet⟩
  · exact ⟨_, cutByRst_trace _ _ _, cutByRst_out _ _ _⟩
  · exact ⟨[], quiet⟩
  · exact ⟨[], quiet⟩

/-- Settles O10: `OUT` sees the writes among the added actions and nothing else. -/
theorem outIsReplayOfWrites : Obligations.OutIsReplayOfWrites := by
  unfold Obligations.OutIsReplayOfWrites
  intro s t h
  obtain ⟨actions, htrace, hout⟩ := step_actions h
  exact ⟨actions, htrace, hout.trans (actAll_eq_writes s.out actions)⟩

/-- Settles O11: read after write inside the word, and the frame outside it. -/
theorem wordWriteAndRead : Obligations.WordWriteAndRead := by
  unfold Obligations.WordWriteAndRead
  refine fun m w v => ⟨readWord_writeWord_same m w v, fun j hj => read_writeWord_inside m w v hj, fun a ha => ?_⟩
  exact read_writeWord_outside m w v (by omega)

/-- Settles O13: port actions keep the canonical form. -/
theorem stepKeepsOutCanonical : Obligations.StepKeepsOutCanonical := by
  unfold Obligations.StepKeepsOutCanonical
  intro s t hwf h
  obtain ⟨actions, -, hout⟩ := step_actions h
  rw [hout]
  exact wf_actAll hwf actions

/-! ### What a step leaves in `S` -/

/-- A step leaves `S` as it was, at the reset values, or as a command makes it from the same `S`. -/
theorem step_regs {s t : State} (h : step s = .next t) :
    t.regs = s.regs ∨ t.regs = Regs.reset ∨ ∃ i u, u.regs = s.regs ∧ t.regs = (effectOf i u).regs := by
  obtain ⟨-, rfl⟩ | ⟨w, i, rest, -, -, rfl⟩ | ⟨w, e, rest, -, -, rfl⟩ | ⟨p, rest, -, rfl⟩ | ⟨rest, -, rfl⟩ |
    ⟨w, done, i, rest, -, -, rfl⟩ | ⟨w, done, e, rest, -, -, rfl⟩ | ⟨ok, rest, -, rfl⟩ := step_cases h
  · exact .inl rfl
  · exact .inr (.inr ⟨i, { s with pending := rest }, rfl, rfl⟩)
  · exact .inl rfl
  · exact .inl rfl
  · exact .inr (.inl rfl)
  · exact .inr (.inl rfl)
  · exact .inr (.inl rfl)
  · exact .inl rfl

/-! ### The invariant of reachable states (R37) -/

/-- The invariant reads `transmit_active`, the envelope state and its counter, and nothing else. -/
theorem Regs.Inv.congr {r q : Regs} (h : r.Inv) (htransmit : q.transmitActive = r.transmitActive)
    (hstate : q.envelopeState = r.envelopeState) (hcounter : q.envelopeCounter = r.envelopeCounter) : q.Inv := by
  obtain ⟨hfading, hresting, hkeyed, hunkeyed⟩ := h
  constructor
  · rwa [hstate, hcounter]
  · rwa [hstate, hcounter]
  · rwa [hstate, htransmit]
  · rwa [hstate, htransmit]

theorem inv_reset : Regs.reset.Inv := ⟨by decide, by decide, by decide, by decide⟩

/-- An edge starts a fade at counter 0, keyed as the operand says (R91, R92). -/
theorem inv_edge (r : Regs) : (risingEdge r).Inv ∧ (fallingEdge r).Inv := by
  constructor <;> constructor <;> simp [risingEdge, fallingEdge]

theorem setTxEffect_inv (active : Bool) {r : Regs} (h : r.Inv) : (setTxEffect active r).regs.Inv := by
  by_cases hedge : active = r.transmitActive
  · rwa [setTxEffect_regs_of_eq hedge]
  · rw [setTxEffect_regs_of_ne hedge]
    cases active with
    | false => exact (inv_edge r).2
    | true => exact (inv_edge r).1

theorem generateEffect_inv {r : Regs} (h : r.Inv) (sin : F64 → F64) (v : Bool) (outBase : WordIndex)
    (frameCount sampleRate : Int) (p : Ports) :
    (generateEffect sin v outBase frameCount sampleRate p r).regs.Inv := by
  rw [generateEffect_regs]
  split
  · exact h
  · exact Function.Iterate.rec Regs.Inv h (fun _ => frameNext_inv _) _

theorem effectOf_inv (i : Instr) {s : State} (h : s.regs.Inv) : (effectOf i s).regs.Inv := by
  cases i with
  | init n => exact inv_reset.congr rfl rfl rfl
  | teardown => exact inv_reset
  | setTx active => exact setTxEffect_inv active h
  | regProv en freq vol => exact h.congr rfl rfl rfl
  | generate v outBase frameCount sampleRate => exact generateEffect_inv h _ _ _ _ _ _
  | isActive => exact h

/-- Settles O58: what a step leaves in `S` meets the invariant in each of the three cases. -/
theorem stepKeepsInvariant : Obligations.StepKeepsInvariant := by
  unfold Obligations.StepKeepsInvariant
  intro s t hinv h
  obtain hsame | hreset | ⟨i, u, hu, hcommand⟩ := step_regs h
  · rwa [hsame]
  · rw [hreset]
    exact inv_reset
  · rw [hcommand]
    exact effectOf_inv i (by rwa [hu])

/-- Settles O59: the reset state is Idle, unkeyed, at counter 0, with nothing of `OUT` known. -/
theorem resetMeetsInvariants : Obligations.ResetMeetsInvariants := ⟨inv_reset, wf_reset⟩

/-- What holds in a state and is kept by every step holds of every state a run leads to. -/
theorem ReachableFrom.induction {P : State → Prop} {s t : State} (hstep : ∀ u v, P u → step u = .next v → P v)
    (hs : P s) (h : ReachableFrom s t) : P t := by
  induction h with
  | refl => exact hs
  | next _ huv ih => exact hstep _ _ ih huv

/-- Settles O60: the step lemma (O58) along the run from reset, and the no-op guard where `init` = 0. -/
theorem reachableStatesMeetInvariant : Obligations.ReachableStatesMeetInvariant := by
  unfold Obligations.ReachableStatesMeetInvariant
  intro events s h
  refine ⟨h.induction (P := fun u => u.regs.Inv) stepKeepsInvariant inv_reset, fun hinit v outBase n rate => ?_⟩
  exact exec_generate_noOp (noOpGuard_iff.2 (.inr hinit)) outBase n rate

end Sys2Proof.Machine
end

section
/-! PROOFS of the family other, commands (41_transmit_edge.md, 42_generate.md). What an edge leaves fixes the first frame after
it. Of GENERATE one equation each says which words it writes (`generateEffect_writeWords`), which ports it samples
(`generateEffect_samples`) and what it leaves in `S` (`generateEffect_regs`); frames split at any frame (`frames_add`). -/

namespace Sys2Proof.Machine

/-! ### The transmit edge (R91, R92) -/

/-- `S` after an edge (R91, R92). -/
theorem regs_of_exec_setTx_edge {active : Bool} {s t : State} (hedge : active ≠ s.regs.transmitActive)
    (h : exec (.setTx active) s = .next t) : t.regs = if active then risingEdge s.regs else fallingEdge s.regs := by
  obtain rfl := exec_next_iff.1 h
  exact setTxEffect_regs_of_ne hedge

theorem envelopeValue_risingEdge (r : Regs) : envelopeValue (risingEdge r) = fZero := by
  obtain ⟨hfirst, -⟩ := ramp_values
  exact (envelopeValue_fadeIn (r := risingEdge r) (i := 0) rfl rfl).trans hfirst

theorem envelopeValue_fallingEdge (r : Regs) : envelopeValue (fallingEdge r) = fOne := by
  obtain ⟨hfirst, -, -, hfull, -⟩ := ramp_values
  rw [envelopeValue_fadeOut (r := fallingEdge r) (i := 0) rfl rfl, if_neg (by decide), hfirst, hfull]

theorem isFinite_of_isZero {x : F64} (h : isZero x = true) : isFinite x = true := by
  rw [isFinite_iff, (isZero_iff x).1 h]
  decide

/-- A product of finite values with a zero among them is a zero. -/
theorem isZero_fmul {x y : F64} (hx : isFinite x = true) (hy : isFinite y = true)
    (h : isZero x = true ∨ isZero y = true) : isZero (fmul x y) = true := by
  have hprod : unitsOfMag (fMag x) * unitsOfMag (fMag y) = 0 := by
    rwa [Nat.mul_eq_zero, unitsOfMag_eq_zero, unitsOfMag_eq_zero, ← isZero_iff, ← isZero_iff]
  rw [fmul_of_finite hx hy, hprod, roundMag_zero (by positivity), isZero_iff, fMag_pack _ (by decide)]

/-- Settles O20: after the edge the phase is positive zero, so both factors of the product are zeros. -/
theorem firstSampleAfterRisingEdgeIsZero : Obligations.FirstSampleAfterRisingEdgeIsZero := by
  unfold Obligations.FirstSampleAfterRisingEdgeIsZero
  intro sin vol s t hsin hvol hunkeyed h
  have hregs : t.regs = risingEdge s.regs := regs_of_exec_setTx_edge (by rw [hunkeyed]; decide) h
  have hphase : sin (risingEdge s.regs).phase = fZero := hsin
  have hproduct : isZero (fmul fZero vol) = true := isZero_fmul isFinite_fZero hvol (.inl (by decide))
  rw [hregs, frameSample, hphase, envelopeValue_risingEdge]
  exact isZero_fmul (isFinite_of_isZero hproduct) isFinite_fZero (.inl hproduct)

/-- Settles O21: the falling edge restarts the fade-out at counter 0 and keeps the phase. -/
theorem fallingEdgeStartsFromFullLevel : Obligations.FallingEdgeStartsFromFullLevel := by
  unfold Obligations.FallingEdgeStartsFromFullLevel
  intro s t hkeyed h
  have hregs : t.regs = fallingEdge s.regs := regs_of_exec_setTx_edge (by rw [hkeyed]; decide) h
  rw [hregs]
  exact ⟨envelopeValue_fallingEdge s.regs, rfl⟩

/-- Settles O23: REG_PROV and IS_ACTIVE do not touch the field, and GENERATE keeps it. -/
theorem transmitActiveChangesOnlyByCall : Obligations.TransmitActiveChangesOnlyByCall := by
  unfold Obligations.TransmitActiveChangesOnlyByCall
  intro i s t hinit htear hset h
  obtain rfl := exec_next_iff.1 h
  cases i with
  | init n => exact absurd rfl (hinit n)
  | teardown => exact absurd rfl htear
  | setTx active => exact absurd rfl (hset active)
  | regProv en freq vol => rfl
  | generate v outBase n rate => exact (generateEffect_queried _ _ _ _ _ _ _).1
  | isActive => rfl

/-- An edge starts the fade of its direction at counter 0, and keeps what the guards of GENERATE read (R91, R92). -/
theorem setTxEffect_edge {active : Bool} {r : Regs} (hedge : active ≠ r.transmitActive) :
    let e := setTxEffect active r
    e.regs.envelopeState = (if active then .fadeIn else .fadeOut) ∧ e.regs.envelopeCounter = 0#32 ∧
    e.regs.init = r.init ∧ e.regs.provFreq = r.provFreq ∧ e.regs.provVol = r.provVol := by
  intro e
  rw [setTxEffect_regs_of_ne hedge]
  cases active <;> exact ⟨rfl, rfl, rfl, rfl, rfl⟩

/-- Settles O42: the edge starts a fade at counter 0 (`setTxEffect_edge`), and 48 frames end it (`iterate_fade_over`). -/
theorem keyingCycle : Obligations.KeyingCycle := by
  unfold Obligations.KeyingCycle
  intro active outBase n rate s hinit hfreq hvol hedge hn
  obtain ⟨hstate, hcounter, hinit', hfreq', hvol'⟩ := setTxEffect_edge hedge
  have hturns : 48 ≤ frameTurns n := by unfold frameTurns; omega
  have hfade : (setTxEffect active s.regs).regs.envelopeState = .fadeIn ∨
      (setTxEffect active s.regs).regs.envelopeState = .fadeOut := by
    rw [hstate]
    cases active <;> decide
  obtain ⟨hend, hcounter48⟩ :=
    iterate_fade_over (phaseIncrement (sampledFreq s.ports) rate) hfade hcounter hturns
  obtain ⟨htransmit, -⟩ :=
    iterate_frame (phaseIncrement (sampledFreq s.ports) rate) (setTxEffect active s.regs).regs (frameTurns n)
  refine ⟨_, _, exec_setTx active s, exec_eq_commit _ _, ?_⟩
  rw [commit_regs, effectOf_generate_tone (hinit'.trans hinit) (hfreq'.trans hfreq) (hvol'.trans hvol)]
  refine ⟨hend.trans ?_, hcounter48, htransmit.trans (setTxEffect_transmitActive active s.regs)⟩
  rw [hstate]
  cases active <;> rfl

/-! ### The result of GENERATE (R100, R103) -/

/-- Settles O31: the effect of the tone path, committed. -/
theorem generateToneResult : Obligations.GenerateToneResult := by
  unfold Obligations.GenerateToneResult
  intro outBase n rate s hinit hfreq hvol
  rw [exec_eq_commit, effectOf_generate_tone hinit hfreq hvol]
  exact ⟨_, _, _, rfl, rfl, rfl, rfl, rfl, rfl, rfl, rfl, rfl⟩

section Generate
variable (sin : F64 → F64) (v : Bool) (outBase : WordIndex) (frameCount sampleRate : Int) (p : Ports) (r : Regs)

/-- The words GENERATE writes, in order: none under the no-op guard, otherwise `2n` from `out_base` on (R43, R101). -/
theorem generateEffect_writeWords :
    (writesOf (generateEffect sin v outBase frameCount sampleRate p r).actions).map Prod.fst =
      if noOpGuard v r = true then [] else (List.range (2 * frameTurns frameCount)).map (sampleIndex outBase) := by
  rcases h : noOpGuard v r with _ | _
  · rw [generateEffect_writeIndices h, if_neg Bool.false_ne_true]
  · rw [generateEffect_noOp h, if_pos rfl]
    rfl

/-- The ports GENERATE samples: both on the tone path, none where a guard holds (R101, R102, R103). -/
theorem generateEffect_samples :
    samplesOf (generateEffect sin v outBase frameCount sampleRate p r).actions =
      if noOpGuard v r = true ∨ silenceGuard r = true then [] else [.freq p.pFreq, .vol p.pVol] := by
  obtain ⟨hnoOp, heffect⟩ | ⟨hnoOp, r', x, pre, heffect, -, -, hpath⟩ :=
    generateEffect_cases sin v outBase frameCount sampleRate p r
  · rw [heffect, if_pos (.inl hnoOp)]
    rfl
  · rw [heffect, samplesOf_append, (quiet_frames _ _ _).2, List.append_nil, hnoOp]
    obtain ⟨hsilence, -, rfl⟩ | ⟨hsilence, -, rfl⟩ := hpath
    · rw [hsilence, if_pos (.inr rfl)]
      rfl
    · rw [hsilence, if_neg (by decide)]
      rfl

/-- Every word written is one of the `2n` from `out_base` on. -/
theorem writeWord_of_mem {q : WordIndex × F64}
    (h : q ∈ writesOf (generateEffect sin v outBase frameCount sampleRate p r).actions) :
    ∃ j < 2 * frameTurns frameCount, sampleIndex outBase j = q.1 := by
  have hword := List.mem_map_of_mem (f := Prod.fst) h
  rw [generateEffect_writeWords] at hword
  split at hword
  · exact absurd hword List.not_mem_nil
  · obtain ⟨j, hj, hq⟩ := List.mem_map.1 hword
    exact ⟨j, List.mem_range.1 hj, hq⟩

/-- GENERATE writes nothing under the no-op guard or with no frames (R101, R104). -/
theorem generateEffect_no_writes (h : v = false ∨ r.init = false ∨ frameCount ≤ 0) :
    writesOf (generateEffect sin v outBase frameCount sampleRate p r).actions = [] := by
  rw [← or_assoc, ← noOpGuard_iff] at h
  obtain hnoOp | hnone := h
  · rw [generateEffect_noOp hnoOp]
    rfl
  · exact (generateEffect_no_frames hnone _ _ _ _ _ _).2

/-- The fields of `S` that GENERATE never writes (R100). -/
theorem generateEffect_kept :
    let e := generateEffect sin v outBase frameCount sampleRate p r
    e.regs.transmitActive = r.transmitActive ∧ e.regs.init = r.init ∧ e.regs.provEn = r.provEn ∧
    e.regs.provFreq = r.provFreq ∧ e.regs.provVol = r.provVol ∧ e.regs.blockSize = r.blockSize := by
  intro e
  rw [generateEffect_regs]
  split
  · exact ⟨rfl, rfl, rfl, rfl, rfl, rfl⟩
  · exact iterate_frame _ _ _

end Generate

/-- Settles O33: the fields kept, the bytes outside the words written, and nothing written at all under the no-op guard. -/
theorem generateFrame : Obligations.GenerateFrame := by
  unfold Obligations.GenerateFrame
  intro v outBase n rate s t h
  obtain rfl := exec_next_iff.1 h
  obtain ⟨htransmit, hinit, hen, hfreq, hvol, hblock⟩ :=
    generateEffect_kept Config.sin v outBase n rate s.ports s.regs
  refine ⟨htransmit, hinit, hen, hfreq, hvol, hblock, rfl, rfl, rfl, fun a ha => ?_, fun hnone a => ?_⟩
  · refine read_actAll_outside s.out _ fun q hq => ?_
    obtain ⟨j, hj, hword⟩ := writeWord_of_mem _ _ _ _ _ _ _ hq
    rw [← hword]
    exact ha j hj
  · exact congrArg (Memory.read · a) (actAll_of_no_writes s.out (generateEffect_no_writes _ _ _ _ _ _ _ hnone))

/-- Only GENERATE writes `OUT` (R32, R40). -/
theorem effectOf_no_writes {i : Instr} (h : ∀ v b n r, i ≠ .generate v b n r) (s : State) :
    writesOf (effectOf i s).actions = [] := by
  cases i with
  | init n => rfl
  | teardown => rfl
  | setTx active => rfl
  | regProv en freq vol => rfl
  | generate v outBase n rate => exact absurd rfl (h v outBase n rate)
  | isActive => exact isActiveEffect_writes s.ports s.regs

/-- Settles O34: an effect without writes leaves `OUT` as it is. -/
theorem onlyGenerateWritesOut : Obligations.OnlyGenerateWritesOut := by
  unfold Obligations.OnlyGenerateWritesOut
  intro i s t hother h
  obtain rfl := exec_next_iff.1 h
  have hwrites := effectOf_no_writes hother s
  exact ⟨fun a => congrArg (Memory.read · a) (actAll_of_no_writes s.out hwrites), _, commit_trace _ _, hwrites⟩

/-- Settles O35: past the no-op guard both paths write the same words. -/
theorem writesAscend : Obligations.WritesAscend := by
  unfold Obligations.WritesAscend
  intro outBase n rate s hinit
  exact ⟨_, exec_eq_commit _ s, _, commit_trace _ _, generateEffect_writeIndices (noOpGuard_of_init hinit) _ _ _ _ _⟩

/-! ### What GENERATE does not read (R34, R102, R103) -/

/-- `S` with another value in `prov_en`. -/
def Regs.withProvEn (en : Bool) (r : Regs) : Regs := { r with provEn := en }

theorem frameNext_commute_withProvEn (delta : F64) (en : Bool) :
    Function.Commute (frameNext delta) (Regs.withProvEn en) := by
  rintro ⟨_, _, state, _, _, _, _, _, _⟩
  cases state <;> rfl

theorem frameSample_withProvEn (sin : F64 → F64) (vol : F64) (en : Bool) (r : Regs) :
    frameSample sin vol (r.withProvEn en) = frameSample sin vol r :=
  congrArg (fmul (fmul (sin r.phase) vol)) (envelopeValue_congr rfl rfl)

/-- GENERATE carries `prov_en` along, and neither it nor `P_EN` changes anything else. -/
theorem generateEffect_withProvEn (sin : F64 → F64) (v : Bool) (outBase : WordIndex) (frameCount sampleRate : Int)
    (p : Ports) (r : Regs) (en pEn : Bool) :
    generateEffect sin v outBase frameCount sampleRate { p with pEn := pEn } (r.withProvEn en) =
      { generateEffect sin v outBase frameCount sampleRate p r with
        regs := (generateEffect sin v outBase frameCount sampleRate p r).regs.withProvEn en } := by
  have hguard : noOpGuard v (r.withProvEn en) = noOpGuard v r := rfl
  have hsilence : silenceGuard (r.withProvEn en) = silenceGuard r := rfl
  have hframes := fun delta k => (frameNext_commute_withProvEn delta en).iterate_left k r
  have hfreq : sampledFreq { p with pEn := pEn } = sampledFreq p := rfl
  rcases h₁ : noOpGuard v r with _ | _
  · rcases h₂ : silenceGuard r with _ | _
    · rw [generateEffect_tone (hguard.trans h₁) (hsilence.trans h₂), generateEffect_tone h₁ h₂]
      simp only [hfreq, hframes _ _, frameSample_withProvEn]
    · rw [generateEffect_silence (hguard.trans h₁) (hsilence.trans h₂), generateEffect_silence h₁ h₂]
  · rw [generateEffect_noOp (hguard.trans h₁), generateEffect_noOp h₁]

/-- Settles O36: the samples by `generateEffect_samples`, the independence by `generateEffect_withProvEn`. -/
theorem generateSamplesPortsOnce : Obligations.GenerateSamplesPortsOnce := by
  unfold Obligations.GenerateSamplesPortsOnce
  refine ⟨fun v outBase n rate s t h => ?_, fun v outBase n rate s t en pEn h => ?_⟩
  · obtain rfl := exec_next_iff.1 h
    refine ⟨_, commit_trace _ _, (generateEffect_samples _ _ _ _ _ _ _).trans ?_⟩
    simp only [← ite_not (p := _ ∨ _), noOpGuard_iff, silenceGuard_iff, not_or, Bool.not_eq_false, and_assoc]
  · obtain rfl := exec_next_iff.1 h
    have heffect : effectOf (.generate v outBase n rate)
        { s with regs := { s.regs with provEn := en }, ports := { s.ports with pEn := pEn } } = _ :=
      generateEffect_withProvEn Config.sin v outBase n rate s.ports s.regs en pEn
    rw [exec_eq_commit, heffect]
    rfl

/-- The effect of a command reads a port only where its presence flag is set (R34). -/
theorem effectOf_congr_ports (i : Instr) {s : State} {p : Ports} (hen : s.regs.provEn = true → p.pEn = s.ports.pEn)
    (hfreq : s.regs.provFreq = true → p.pFreq = s.ports.pFreq)
    (hvol : s.regs.provVol = true → p.pVol = s.ports.pVol) : effectOf i { s with ports := p } = effectOf i s := by
  cases i with
  | init n => rfl
  | teardown => rfl
  | setTx active => rfl
  | regProv en freq vol => rfl
  | generate v outBase n rate =>
    change generateEffect Config.sin v outBase n rate p s.regs = generateEffect Config.sin v outBase n rate s.ports s.regs
    unfold generateEffect
    split
    · rfl
    · split
      · rfl
      · obtain ⟨hfreq', hvol'⟩ : s.regs.provFreq = true ∧ s.regs.provVol = true := by
          simpa [silenceGuard_iff] using ‹¬silenceGuard s.regs = true›
        rw [sampledFreq, hfreq hfreq', hvol hvol']
        rfl
  | isActive =>
    change isActiveEffect p s.regs = isActiveEffect s.ports s.regs
    rcases h : s.regs.provEn with _ | _
    · simp [isActiveEffect, enabledAnswer, h]
    · simp [isActiveEffect, enabledAnswer, h, hen h]

/-- Settles O37: the same effect, committed to the same state but for the ports. -/
theorem absentProvidersIgnored : Obligations.AbsentProvidersIgnored := by
  unfold Obligations.AbsentProvidersIgnored
  intro i s t p hen hfreq hvol h
  obtain rfl := exec_next_iff.1 h
  rw [exec_eq_commit, effectOf_congr_ports i hen hfreq hvol]
  rfl

/-- Settles O52: none of the three equations about GENERATE names the sine unit. -/
theorem sinNeverReachesState : Obligations.SinNeverReachesState := by
  unfold Obligations.SinNeverReachesState
  intro sin sin' v outBase n rate p r
  refine ⟨?_, ?_, ?_⟩
  · rw [generateEffect_regs, generateEffect_regs]
  · rw [generateEffect_samples, generateEffect_samples]
  · rw [generateEffect_writeWords, generateEffect_writeWords]

/-! ### One GENERATE in two (R113) -/

/-- Frames split at frame `m`, the second part in the buffer `2m` words on. -/
theorem frames_add (outBase : WordIndex) (m n : Nat) (x : Nat → F64) :
    ((List.range (m + n)).flatMap fun k => framePair outBase k (x k)) =
      ((List.range m).flatMap fun k => framePair outBase k (x k)) ++
      (List.range n).flatMap fun k => framePair (outBase + BitVec.ofNat 32 (2 * m)) k (x (k + m)) := by
  have hpair : ∀ k y, framePair (outBase + BitVec.ofNat 32 (2 * m)) k y = framePair outBase (m + k) y := fun k y => by
    rw [framePair, framePair, sampleIndex_add, sampleIndex_add, Nat.mul_add, Nat.add_assoc]
  rw [List.range_add, List.flatMap_append, List.flatMap_map]
  simp only [hpair, Nat.add_comm m]

/-- The second of two GENERATEs ends in the `S` of the one, and the writes of the two are the writes of the one. -/
theorem generateEffect_add (sin : F64 → F64) (v : Bool) (outBase : WordIndex) (m n : Nat) (sampleRate : Int)
    (p : Ports) (r : Regs) :
    let first := generateEffect sin v outBase m sampleRate p r
    let second := generateEffect sin v (outBase + BitVec.ofNat 32 (2 * m)) n sampleRate p first.regs
    let whole := generateEffect sin v outBase ((m : Int) + n) sampleRate p r
    second.regs = whole.regs ∧ writesOf first.actions ++ writesOf second.actions = writesOf whole.actions := by
  intro first second whole
  obtain ⟨-, hinit, -, hfreq, hvol, -⟩ := generateEffect_kept sin v outBase m sampleRate p r
  have hguard : noOpGuard v first.regs = noOpGuard v r := by rw [noOpGuard, hinit]; rfl
  have hsilence : silenceGuard first.regs = silenceGuard r := by rw [silenceGuard, hfreq, hvol]; rfl
  have hturns : frameTurns ((m : Int) + n) = m + n := Int.toNat_natCast (m + n)
  have hm : frameTurns (m : Int) = m := Int.toNat_natCast m
  have hn : frameTurns (n : Int) = n := Int.toNat_natCast n
  rcases h₁ : noOpGuard v r with _ | _
  · rcases h₂ : silenceGuard r with _ | _
    · have hfirst : first = _ := generateEffect_tone h₁ h₂
      have hsecond : second = _ := generateEffect_tone (hguard.trans h₁) (hsilence.trans h₂)
      have hwhole : whole = _ := generateEffect_tone h₁ h₂
      rw [hfirst] at hsecond
      rw [hfirst, hsecond, hwhole, hturns, hm, hn]
      simp only [← Function.iterate_add_apply, Nat.add_comm n m, frames_add, writesOf_append, writesOf_sample,
        writesOf_nil, List.nil_append, true_and]
    · have hfirst : first = _ := generateEffect_silence h₁ h₂
      have hsecond : second = _ := generateEffect_silence (hguard.trans h₁) (hsilence.trans h₂)
      have hwhole : whole = _ := generateEffect_silence h₁ h₂
      rw [hfirst] at hsecond
      rw [hfirst, hsecond, hwhole, hturns, hm, hn]
      exact ⟨rfl, by rw [frames_add outBase m n fun _ => fZero, writesOf_append]⟩
  · have hfirst : first = _ := generateEffect_noOp h₁
    have hsecond : second = _ := generateEffect_noOp (hguard.trans h₁)
    have hwhole : whole = _ := generateEffect_noOp h₁
    rw [hfirst] at hsecond
    rw [hfirst, hsecond, hwhole]
    exact ⟨rfl, rfl⟩

/-- Settles O53: the effects by `generateEffect_add`, and `OUT` is what the writes make of it. -/
theorem splitGenerateSame : Obligations.SplitGenerateSame := by
  unfold Obligations.SplitGenerateSame
  intro v outBase m n rate s
  obtain ⟨hregs, hwrites⟩ := generateEffect_add Config.sin v outBase m n rate s.ports s.regs
  refine ⟨_, _, _, exec_eq_commit _ _, exec_eq_commit _ _, exec_eq_commit _ _, hregs, ?_, ?_⟩
  · rw [commit_out, commit_out, commit_out, ← actAll_append, actAll_eq_writes, actAll_eq_writes, writesOf_append]
    exact congrArg (List.foldl _ s.out) hwrites
  · rw [commit_trace, commit_trace, commit_trace, writesOf_append, writesOf_append, writesOf_append, List.append_assoc]
    exact congrArg (writesOf s.trace ++ ·) hwrites

end Sys2Proof.Machine
end

section
/-! PROOFS of the family other, arithmetic (00_scope.md R11, R12). Finite operands: each operation packs a rounded magnitude, and
`roundsTo_pack` says what that is. The other classes of operands take one branch of the operation each, and a lemma per branch says
what it gives. -/

namespace Sys2Proof.Machine

/-! ### The classes of values (R11) -/

theorem isNaN_of_isInf {x : F64} (h : isInf x = true) : isNaN x = false := by
  rw [isNaN_false_iff, (isInf_iff x).1 h]

theorem isZero_of_isInf {x : F64} (h : isInf x = true) : isZero x = false := by
  rw [isZero, (isInf_iff x).1 h]
  decide

/-- A value that is not finite is a NaN or an infinity. -/
theorem isFinite_false_iff {x : F64} : isFinite x = false ↔ isNaN x = true ∨ isInf x = true := by
  rw [isNaN_iff, isInf_iff, ← Bool.not_eq_true, isFinite_iff]
  omega

theorem isInf_pack_infMag (neg : Bool) : isInf (pack neg infMag) = true := by
  rw [isInf_iff, fMag_pack _ infMag_lt]

theorem isZero_pack_zero (neg : Bool) : isZero (pack neg 0) = true := by
  rw [isZero_iff, fMag_pack _ (by decide)]

theorem isInf_fNeg {x : F64} (h : isInf x = true) : isInf (fNeg x) = true := by
  rw [isInf_iff, fNeg, fMag_pack _ (fMag_lt x), (isInf_iff x).1 h]

theorem fSign_fNeg (x : F64) : fSign (fNeg x) = !fSign x := fSign_pack _ (fMag_lt x)

/-! ### Sum and difference (R12) -/

section Sum
variable {x y : F64}

theorem fadd_inf_left (hx : isInf x = true) (hy : isNaN y = false) :
    fadd x y = if isInf y && fSign x != fSign y then quietNaN .add x y else x := by
  unfold fadd
  rw [if_neg (by simp [isNaN_of_isInf hx, hy]), if_pos hx]

theorem fsub_inf_left (hx : isInf x = true) (hy : isNaN y = false) :
    fsub x y = if isInf y && fSign x == fSign y then quietNaN .sub x y else x := by
  unfold fsub
  rw [if_neg (by simp [isNaN_of_isInf hx, hy]), if_pos hx]

theorem fadd_inf_finite (hx : isInf x = true) (hy : isFinite y = true) : fadd x y = x := by
  rw [fadd_inf_left hx (isNaN_of_isFinite hy), isInf_of_isFinite hy]
  rfl

theorem fsub_inf_finite (hx : isInf x = true) (hy : isFinite y = true) : fsub x y = x := by
  rw [fsub_inf_left hx (isNaN_of_isFinite hy), isInf_of_isFinite hy]
  rfl

theorem fadd_finite_inf (hx : isFinite x = true) (hy : isInf y = true) : fadd x y = y := by
  unfold fadd
  rw [if_neg (by simp [isNaN_of_isFinite hx, isNaN_of_isInf hy]), if_neg (by simp [isInf_of_isFinite hx]), if_pos hy]

theorem fsub_finite_inf (hx : isFinite x = true) (hy : isInf y = true) : fsub x y = fNeg y := by
  unfold fsub
  rw [if_neg (by simp [isNaN_of_isFinite hx, isNaN_of_isInf hy]), if_neg (by simp [isInf_of_isFinite hx]), if_pos hy]

/-- Two infinities add where they have one sign, and subtract where they have two; otherwise the result is a NaN. -/
theorem sum_inf_inf (hx : isInf x = true) (hy : isInf y = true) :
    (fSign x = fSign y → fadd x y = x ∧ isNaN (fsub x y) = true) ∧
    (fSign x ≠ fSign y → isNaN (fadd x y) = true ∧ fsub x y = x) := by
  rw [fadd_inf_left hx (isNaN_of_isInf hy), fsub_inf_left hx (isNaN_of_isInf hy), hy]
  constructor
  · intro h
    rw [if_neg (by simp [h]), if_pos (by simp [h])]
    exact ⟨rfl, isNaN_quietNaN _ _ _⟩
  · intro h
    rw [if_pos (by simpa using h), if_neg (by simpa using h)]
    exact ⟨isNaN_quietNaN _ _ _, rfl⟩

theorem isNaN_fsub (h : isNaN x = true ∨ isNaN y = true) : isNaN (fsub x y) = true := by
  unfold fsub
  rw [if_pos (by simpa using h)]
  exact isNaN_quietNaN _ _ _

end Sum

/-- Settles O54: finite operands by `roundsTo_roundUnits`, the other classes by the branch they take. -/
theorem sumRoundsToNearestEven : Obligations.SumRoundsToNearestEven := by
  unfold Obligations.SumRoundsToNearestEven
  refine ⟨fun x y hx hy => ?_, fun x y hx hy => ?_, fun x y hx hy => ?_, fun x y hx hy => sum_inf_inf hx hy,
    fun x y h => ⟨isNaN_fadd h, isNaN_fsub h⟩⟩
  · rw [fadd_of_finite hx hy]
    exact roundsTo_roundUnits _ _
  · rw [fsub_of_finite hx hy]
    exact roundsTo_roundUnits _ _
  · rw [fsub_finite_inf hy hx]
    exact ⟨fadd_inf_finite hx hy, fadd_finite_inf hy hx, fsub_inf_finite hx hy, isInf_fNeg hx, fSign_fNeg x⟩

/-! ### Product (R12) -/

section Product
variable {x y : F64}

/-- The exact product of two values, by sign and magnitude. -/
theorem units_mul (x y : F64) :
    units x * units y =
      if fSign x != fSign y then -((unitsOfMag (fMag x) * unitsOfMag (fMag y) : Nat) : Int)
      else (unitsOfMag (fMag x) * unitsOfMag (fMag y) : Nat) := by
  unfold units
  cases fSign x <;> cases fSign y <;> simp

theorem oneUnits_cast : ((2 ^ 1074 : Nat) : Int) = 2 ^ 1074 := Nat.cast_pow 2 1074

theorem roundsTo_fmul (hx : isFinite x = true) (hy : isFinite y = true) :
    RoundsTo (fmul x y) (units x * units y) (2 ^ 1074) := by
  rw [fmul_of_finite hx hy, units_mul, ← oneUnits_cast]
  exact roundsTo_pack (den := 2 ^ 1074) (by positivity) _

/-- An infinity times a value that is neither a NaN nor a zero, in either order. -/
theorem fmul_inf (h : isInf x = true ∨ isInf y = true) (hxn : isNaN x = false) (hyn : isNaN y = false)
    (hxz : isZero x = false) (hyz : isZero y = false) : fmul x y = pack (fSign x != fSign y) infMag := by
  unfold fmul
  rw [if_neg (by simp [hxn, hyn]), if_pos (by simpa using h), if_neg (by simp [hxz, hyz])]

theorem isNaN_fmul_inf_zero (hx : isInf x = true) (hy : isZero y = true) :
    isNaN (fmul x y) = true ∧ isNaN (fmul y x) = true := by
  have hyn := isNaN_of_isFinite (isFinite_of_isZero hy)
  unfold fmul
  constructor <;> rw [if_neg (by simp [isNaN_of_isInf hx, hyn]), if_pos (by simp [hx]), if_pos (by simp [hy])]
  · exact isNaN_quietNaN _ _ _
  · exact isNaN_quietNaN _ _ _

end Product

/-- The sign of a product of finite values. -/
theorem fSign_fmul {x y : F64} (hx : isFinite x = true) (hy : isFinite y = true) :
    fSign (fmul x y) = (fSign x != fSign y) := by
  rw [fmul_of_finite hx hy, fSign_pack _ (roundMag_lt _ _)]

/-- Settles O55: finite operands by `roundsTo_fmul`, an infinity by the two branches it can take. -/
theorem productRoundsToNearestEven : Obligations.ProductRoundsToNearestEven := by
  unfold Obligations.ProductRoundsToNearestEven
  refine ⟨fun x y hx hy => ⟨roundsTo_fmul hx hy, fSign_fmul hx hy⟩, fun x y hx hyn hyz => ?_,
    fun x y hx hy => isNaN_fmul_inf_zero hx hy, fun x y h => isNaN_fmul h⟩
  have hxn := isNaN_of_isInf hx
  have hxz := isZero_of_isInf hx
  rw [fmul_inf (.inl hx) hxn hyn hxz hyz, fmul_inf (.inr hx) hyn hxn hyz hxz, bne_comm (a := fSign y)]
  exact ⟨⟨isInf_pack_infMag _, fSign_pack _ infMag_lt⟩, isInf_pack_infMag _, fSign_pack _ infMag_lt⟩

/-! ### Quotient (R12) -/

section Quotient
variable {x y : F64}

/-- A finite quotient is the exact one rounded; a negative divisor moves its sign to the numerator. -/
theorem roundsTo_fdiv (hx : isFinite x = true) (hy : isFinite y = true) (hz : isZero y = false) :
    RoundsTo (fdiv x y) (units x * 2 ^ 1074) (units y) := by
  have hpos : 0 < unitsOfMag (fMag y) := Nat.pos_of_ne_zero fun h => by
    rw [isZero, unitsOfMag_eq_zero.1 h] at hz
    exact absurd hz (by decide)
  have hnum : units x * 2 ^ 1074 = if fSign x then -((unitsOfMag (fMag x) * 2 ^ 1074 : Nat) : Int)
      else (unitsOfMag (fMag x) * 2 ^ 1074 : Nat) := by
    rw [Nat.cast_mul, oneUnits_cast, units]
    split
    · exact Int.neg_mul _ _
    · rfl
  rw [fdiv_of_finite hx hy hz, hnum]
  generalize unitsOfMag (fMag x) * 2 ^ 1074 = num
  have hround := roundsTo_pack (num := num) hpos (fSign x != fSign y)
  rw [units]
  generalize fSign y = sign at hround ⊢
  cases sign
  · rwa [Bool.bne_false] at hround ⊢
  · rw [Bool.bne_true] at hround ⊢
    have hneg := hround.negBoth
    revert hneg
    cases fSign x <;> simp

theorem fdiv_inf_finite (hx : isInf x = true) (hy : isFinite y = true) :
    fdiv x y = pack (fSign x != fSign y) infMag := by
  unfold fdiv
  rw [if_neg (by simp [isNaN_of_isInf hx, isNaN_of_isFinite hy]), if_pos hx, if_neg (by simp [isInf_of_isFinite hy])]

theorem fdiv_finite_inf (hx : isFinite x = true) (hy : isInf y = true) : fdiv x y = pack (fSign x != fSign y) 0 := by
  unfold fdiv
  rw [if_neg (by simp [isNaN_of_isFinite hx, isNaN_of_isInf hy]), if_neg (by simp [isInf_of_isFinite hx]), if_pos hy]

theorem isNaN_fdiv_inf_inf (hx : isInf x = true) (hy : isInf y = true) : isNaN (fdiv x y) = true := by
  unfold fdiv
  rw [if_neg (by simp [isNaN_of_isInf hx, isNaN_of_isInf hy]), if_pos hx, if_pos hy]
  exact isNaN_quietNaN _ _ _

/-- A finite value over a zero: an infinity, or a NaN where it is a zero itself. -/
theorem fdiv_zero (hx : isFinite x = true) (hy : isZero y = true) :
    fdiv x y = if isZero x then quietNaN .div x y else pack (fSign x != fSign y) infMag := by
  have hyf := isFinite_of_isZero hy
  unfold fdiv
  rw [if_neg (by simp [isNaN_of_isFinite hx, isNaN_of_isFinite hyf]), if_neg (by simp [isInf_of_isFinite hx]),
    if_neg (by simp [isInf_of_isFinite hyf]), if_pos hy]

theorem fdiv_nonzero_zero (hx : isFinite x = true) (hxz : isZero x = false) (hy : isZero y = true) :
    fdiv x y = pack (fSign x != fSign y) infMag := by
  rw [fdiv_zero hx hy, hxz]
  rfl

theorem isNaN_fdiv_zero_zero (hx : isZero x = true) (hy : isZero y = true) : isNaN (fdiv x y) = true := by
  rw [fdiv_zero (isFinite_of_isZero hx) hy, if_pos hx]
  exact isNaN_quietNaN _ _ _

theorem isNaN_fdiv (h : isNaN x = true ∨ isNaN y = true) : isNaN (fdiv x y) = true := by
  unfold fdiv
  rw [if_pos (by simpa using h)]
  exact isNaN_quietNaN _ _ _

end Quotient

/-- Settles O56: finite operands by `roundsTo_fdiv`, infinities and a zero divisor by the branch they take. -/
theorem quotientRoundsToNearestEven : Obligations.QuotientRoundsToNearestEven := by
  unfold Obligations.QuotientRoundsToNearestEven
  refine ⟨fun x y hx hy hz => ⟨roundsTo_fdiv hx hy hz, ?_⟩, fun x y hx hy => ?_,
    fun x y hx hy => isNaN_fdiv_inf_inf hx hy, fun x y hx hxz hy => ?_,
    fun x y hx hy => isNaN_fdiv_zero_zero hx hy, fun x y h => isNaN_fdiv h⟩
  · rw [fdiv_of_finite hx hy hz, fSign_pack _ (roundMag_lt _ _)]
  · rw [fdiv_inf_finite hx hy, fdiv_finite_inf hy hx, bne_comm (a := fSign y)]
    exact ⟨⟨isInf_pack_infMag _, fSign_pack _ infMag_lt⟩, isZero_pack_zero _, fSign_pack _ (by decide)⟩
  · rw [fdiv_nonzero_zero hx hxz hy]
    exact ⟨isInf_pack_infMag _, fSign_pack _ infMag_lt⟩

/-! ### Integers and order (R12) -/

/-- `i2f` of an integer of up to 53 bits: the sign of the integer, and a magnitude of its absolute value. -/
theorem i2f_exact {n : Int} (h : n.natAbs ≤ 2 ^ 53) :
    isFinite (i2f n) = true ∧ unitsOfMag (fMag (i2f n)) = n.natAbs * 2 ^ 1074 ∧ fSign (i2f n) = decide (n < 0) := by
  obtain ⟨mag, hpack, hlt, hunits⟩ := i2f_natCast h
  have hround : roundMag (n.natAbs * 2 ^ 1074) 1 = mag := by
    have hmag := congrArg fMag hpack
    rwa [i2f, Int.natAbs_natCast, fMag_pack _ (roundMag_lt _ _), fMag_pack _ (hlt.trans infMag_lt)] at hmag
  rw [i2f, hround, fMag_pack _ (hlt.trans infMag_lt)]
  exact ⟨isFinite_pack hlt, hunits, fSign_pack _ (hlt.trans infMag_lt)⟩

theorem units_i2f {n : Int} (h : n.natAbs ≤ 2 ^ 53) : units (i2f n) = n * 2 ^ 1074 := by
  obtain ⟨-, hunits, hsign⟩ := i2f_exact h
  rw [units, hunits, hsign, Nat.cast_mul, oneUnits_cast]
  by_cases hneg : n < 0
  · rw [if_pos (by simpa using hneg), Int.ofNat_natAbs_of_nonpos hneg.le, Int.neg_mul, Int.neg_neg]
  · rw [if_neg (by simpa using hneg), Int.natAbs_of_nonneg (by omega)]

theorem fge_of_isNaN {x y : F64} (h : isNaN x = true ∨ isNaN y = true) : fge x y = false := by
  unfold fge
  rcases h with h | h <;> simp [h]

/-- The order on values that are not NaNs is the order of their places on the line. -/
theorem fge_iff_fKey {x y : F64} (hx : isNaN x = false) (hy : isNaN y = false) :
    fge x y = true ↔ fKey y ≤ fKey x := by
  unfold fge
  simp [hx, hy]

/-- An infinity is at the end of the line of values on the side of its sign. -/
theorem fge_inf {x y : F64} (hx : isInf x = true) (hy : isNaN y = false) :
    (fge x y = true ↔ fSign x = false ∨ (isInf y = true ∧ fSign y = true)) ∧
    (fge y x = true ↔ fSign x = true ∨ (isInf y = true ∧ fSign y = false)) := by
  have hxn := isNaN_of_isInf hx
  have hpos : 0 < infMag := by decide
  rw [fge_iff_fKey hxn hy, fge_iff_fKey hy hxn, isInf_iff, fKey, fKey, (isInf_iff x).1 hx]
  rw [isNaN_false_iff] at hy
  cases fSign x <;> cases fSign y <;> simp <;> omega

/-- Settles O57: `i2f` by `units_i2f`, the order of finite values by `fge_iff`, infinities by `fge_inf`. -/
theorem integersExactAndOrder : Obligations.IntegersExactAndOrder := by
  unfold Obligations.IntegersExactAndOrder
  refine ⟨fun n hn => ?_, fun x y hx hy => fge_iff hx hy, fun x y hx hy => fge_inf hx hy,
    fun x y h => fge_of_isNaN h, by decide, by decide⟩
  have hbits : n.natAbs ≤ 2 ^ 53 := by
    rw [Int.abs_eq_natAbs] at hn
    omega
  obtain ⟨hfinite, -, hsign⟩ := i2f_exact hbits
  exact ⟨hfinite, units_i2f hbits, hsign⟩

end Sys2Proof.Machine
end

section
/-! PROOFS of the family other, the oscillator (42_generate.md R105, R110, R111, R117 to R119). One phase step keeps the range and is
the exact sum less at most one turn, up to one rounding (`phaseStep_inRange`); the statements over many frames iterate it. The
increment is a rounded quotient, bounded through the product `TWO_PI · freq` (`fmul_twoPi_i2f`). A sample is two products, and the
class of each product is read off the classes of its factors. -/

namespace Sys2Proof.Machine

/-! ### The phase over many frames (R117, R119) -/

/-- What one phase step keeps, GENERATE keeps. -/
theorem generateEffect_keeps_phase {P : F64 → Prop} {r : Regs} (h : P r.phase) (sin : F64 → F64) (v : Bool)
    (outBase : WordIndex) (frameCount sampleRate : Int) (p : Ports)
    (hstep : ∀ x, P x → P (phaseStep (phaseIncrement (sampledFreq p) sampleRate) x)) :
    P (generateEffect sin v outBase frameCount sampleRate p r).regs.phase := by
  rw [generateEffect_regs]
  split
  · exact h
  · rw [iterate_phase]
    exact Function.Iterate.rec P h hstep _

/-- Settles O44: one phase step keeps the range (`phaseStep_inRange`), so any number of frames does. -/
theorem generateKeepsPhaseRange : Obligations.GenerateKeepsPhaseRange := by
  unfold Obligations.GenerateKeepsPhaseRange
  intro v outBase n rate s t hphase hdelta h
  obtain rfl := exec_next_iff.1 h
  exact generateEffect_keeps_phase hphase _ _ _ _ _ _ fun x hx => (phaseStep_inRange hdelta hx).1

/-- `k` steps from phase 0: in the range, and a whole number of turns away from `k` increments, up to `k` roundings. -/
theorem iterate_phaseStep {delta : F64} (hdelta : PhaseInRange delta) (k : Nat) :
    PhaseInRange ((phaseStep delta)^[k] fZero) ∧
    ∃ w : Nat, w ≤ k ∧
      |units ((phaseStep delta)^[k] fZero) - (k * units delta - w * units Config.twoPi)| ≤ k * 2 ^ 1024 := by
  induction k with
  | zero => exact ⟨phaseInRange_fZero, 0, le_rfl, by simp [units_fZero, -Int.reducePow]⟩
  | succ k ih =>
    obtain ⟨hrange, w, hw, herror⟩ := ih
    obtain ⟨hrange', w', hw', herror'⟩ := phaseStep_inRange hdelta hrange
    rw [Function.iterate_succ_apply']
    refine ⟨hrange', w + w', by omega, ?_⟩
    generalize (phaseStep delta)^[k] fZero = p at *
    have hsplit : units (phaseStep delta p) -
        ((k + 1 : Nat) * units delta - (w + w' : Nat) * units Config.twoPi) =
        (units (phaseStep delta p) - (units p + units delta - w' * units Config.twoPi)) +
        (units p - (k * units delta - w * units Config.twoPi)) := by
      push_cast; ring
    calc _ = _ := congrArg abs hsplit
      _ ≤ _ := abs_add_le _ _
      _ ≤ 2 ^ 1024 + k * 2 ^ 1024 := add_le_add herror' herror
      _ = (k + 1 : Nat) * 2 ^ 1024 := by rw [Nat.cast_succ, add_mul, one_mul, add_comm]

/-- Settles O46: `iterate_phaseStep`, the error one rounding a step. -/
theorem phaseAccumulates : Obligations.PhaseAccumulates := by
  unfold Obligations.PhaseAccumulates
  exact fun delta k hdelta => (iterate_phaseStep hdelta k).2

/-! ### The phase increment (R105, R117) -/

/-- Numerator and denominator scaled alike round alike. -/
theorem roundMag_mul_right (n : Nat) {d : Nat} (hd : 0 < d) : roundMag (n * d) d = roundMag n 1 :=
  le_antisymm (roundMag_mono hd one_pos (by rw [Nat.mul_one])) (roundMag_mono one_pos hd (by rw [Nat.mul_one]))

/-- Up to 2^84 units of 2^-50, rounding adds less than 2^31 of them: there is a 53-bit multiple of 2^31 between. -/
theorem roundMag_le_add {k : Nat} (hk : k < 2 ^ 84) :
    roundMag (k * 2 ^ 1024) 1 < infMag ∧ unitsOfMag (roundMag (k * 2 ^ 1024) 1) ≤ (k + 2 ^ 31) * 2 ^ 1024 := by
  obtain ⟨top, htop⟩ := exists_mag_of_shift (j := k / 2 ^ 31 + 1) 1055 (by omega)
  have hunits : unitsOfMag top = (k / 2 ^ 31 + 1) * 2 ^ 31 * 2 ^ 1024 := by rw [htop, Nat.mul_assoc, ← Nat.pow_add]
  have hfinite : top < infMag := by
    rw [← unitsOfMag_strictMono.lt_iff_lt, htop]
    calc (k / 2 ^ 31 + 1) * 2 ^ 1055 ≤ 2 ^ 53 * 2 ^ 1055 := Nat.mul_le_mul_right _ (by omega)
      _ < unitsOfMag infMag := by decide +kernel
  have hle : roundMag (k * 2 ^ 1024) 1 ≤ top := by
    apply roundMag_le_of_le one_pos hfinite.le
    rw [Nat.mul_one, hunits]
    exact Nat.mul_le_mul_right _ (by omega)
  refine ⟨hle.trans_lt hfinite, (unitsOfMag_strictMono.monotone hle).trans ?_⟩
  rw [hunits]
  exact Nat.mul_le_mul_right _ (by omega)

/-- The product `TWO_PI · n` for a 32-bit integer: finite, of the sign of `n`, zero only for `n` = 0, and at most 2^31 units of
2^-50 above the exact one. -/
theorem fmul_twoPi_i2f {n : Int} (h : n.natAbs ≤ 2 ^ 31) :
    isFinite (fmul Config.twoPi (i2f n)) = true ∧ fSign (fmul Config.twoPi (i2f n)) = decide (n < 0) ∧
    (n ≠ 0 → isZero (fmul Config.twoPi (i2f n)) = false) ∧
    unitsOfMag (fMag (fmul Config.twoPi (i2f n))) ≤ (twoPiSignificand * n.natAbs + 2 ^ 31) * 2 ^ 1024 := by
  have hM := twoPiSignificand_eq
  obtain ⟨hfinite, hunits, hsign⟩ := i2f_exact (n := n) (by omega)
  have hexact : twoPiSignificand * 2 ^ 1024 * (n.natAbs * 2 ^ 1074) = twoPiSignificand * n.natAbs * 2 ^ 1024 * 2 ^ 1074 :=
    (Nat.mul_mul_mul_comm _ _ _ _).trans (Nat.mul_assoc _ _ _).symm
  obtain ⟨hlt, hle⟩ := roundMag_le_add (k := twoPiSignificand * n.natAbs) (by rw [hM]; omega)
  rw [fmul_of_finite isFinite_twoPi hfinite, fSign_twoPi, hsign, unitsOfMag_twoPi, hunits, hexact,
    roundMag_mul_right _ (by positivity), fMag_pack _ (roundMag_lt _ _)]
  refine ⟨isFinite_pack hlt, ?_, fun hn => ?_, hle⟩
  · rw [fSign_pack _ (roundMag_lt _ _), Bool.false_bne]
  · have hround : 1 ≤ roundMag (twoPiSignificand * n.natAbs * 2 ^ 1024) 1 := by
      apply le_roundMag_of_le one_pos (by decide)
      have : 0 < n.natAbs := Int.natAbs_pos.2 hn
      calc unitsOfMag 1 * 1 = 1 := by decide
        _ ≤ _ := Nat.mul_pos (Nat.mul_pos (by decide) this) (by positivity)
    rw [isZero, fMag_pack _ (roundMag_lt _ _)]
    exact decide_eq_false (by omega)

/-- A non-negative value whose magnitude is below that of `TWO_PI` is in the range. -/
theorem phaseInRange_pack {mag : Nat} (h : mag < fMag Config.twoPi) : PhaseInRange (pack false mag) := by
  have hfinite : mag < infMag := h.trans ((isFinite_iff _).1 isFinite_twoPi)
  rw [phaseInRange_iff, units_pack _ (hfinite.trans infMag_lt), if_neg Bool.false_ne_true, ← unitsOfMag_twoPi]
  exact ⟨isFinite_pack hfinite, Int.natCast_nonneg _, Int.ofNat_lt.2 (unitsOfMag_strictMono h)⟩

/-- Settles O45: with `freq ≤ rate - 1` the product, even rounded, is at most `rate` times the value just below `TWO_PI`, so the
quotient rounds to no more than that value. -/
theorem incrementBelowTwoPi : Obligations.IncrementBelowTwoPi := by
  unfold Obligations.IncrementBelowTwoPi
  rintro freq rate hfreq hlt ⟨-, hrate⟩
  have hM := twoPiSignificand_eq
  obtain ⟨hfinite, hsign, -, hprod⟩ := fmul_twoPi_i2f (n := freq) (by omega)
  obtain ⟨hrfinite, hrunits, hrsign⟩ := i2f_exact (n := rate) (by omega)
  have hrpos : 0 < rate.natAbs * 2 ^ 1074 := Nat.mul_pos (by omega) (by positivity)
  have hrzero : isZero (i2f rate) = false := by
    rw [isZero]
    exact decide_eq_false fun h => by rw [h, unitsOfMag_zero] at hrunits; omega
  have hround : roundMag (unitsOfMag (fMag (fmul Config.twoPi (i2f freq))) * 2 ^ 1074) (rate.natAbs * 2 ^ 1074) ≤
      fMag Config.twoPi - 1 := by
    apply roundMag_le_of_le hrpos (by decide)
    calc unitsOfMag (fMag (fmul Config.twoPi (i2f freq))) * 2 ^ 1074
      _ ≤ (twoPiSignificand * freq.natAbs + 2 ^ 31) * 2 ^ 1024 * 2 ^ 1074 := Nat.mul_le_mul_right _ hprod
      _ ≤ (twoPiSignificand - 1) * rate.natAbs * 2 ^ 1024 * 2 ^ 1074 :=
        Nat.mul_le_mul_right _ (Nat.mul_le_mul_right _ (by rw [hM]; omega))
      _ = unitsOfMag (fMag Config.twoPi - 1) * (rate.natAbs * 2 ^ 1074) := by
        rw [unitsOfMag_twoPi_pred]
        exact (Nat.mul_assoc _ _ _).trans (Nat.mul_mul_mul_comm _ _ _ _)
  rw [phaseIncrement, fdiv_of_finite hfinite hrfinite hrzero, hsign, hrsign, hrunits, decide_eq_false (by omega),
    decide_eq_false (by omega)]
  exact phaseInRange_pack (Nat.lt_of_le_pred (by decide) hround)

/-! ### Phases that are not finite (R118) -/

/-- Settles O47: the step keeps a NaN (`isNaN_phaseStep`), and the three writers store positive zero. -/
theorem nanPhasePersists : Obligations.NanPhasePersists := by
  unfold Obligations.NanPhasePersists
  refine ⟨fun _ _ => isNaN_phaseStep, fun v outBase n rate s t hphase h => ?_,
    fun n s => ⟨_, exec_init n s, rfl⟩, fun s => ⟨_, exec_teardown s, rfl⟩, fun s hunkeyed => ?_⟩
  · obtain rfl := exec_next_iff.1 h
    exact generateEffect_keeps_phase (P := fun x => isNaN x = true) hphase _ _ _ _ _ _
      fun x hx => isNaN_phaseStep (.inr hx)
  · refine ⟨_, exec_setTx true s, ?_⟩
    rw [setTxEffect_regs_of_ne (by rw [hunkeyed]; decide)]
    rfl

/-- Where the sum is an infinite increment, so is the next phase: less `TWO_PI` it is the same infinity. -/
theorem phaseStep_of_fadd_inf {delta p : F64} (hdelta : isInf delta = true) (hsum : fadd p delta = delta) :
    phaseStep delta p = delta := by
  rcases hge : fge (fadd p delta) Config.twoPi with _ | _
  · rw [phaseStep_of_not_ge hge, hsum]
  · rw [phaseStep_of_ge hge, hsum, fsub_inf_finite hdelta isFinite_twoPi]

/-- An infinite increment takes any finite phase to itself on the first frame, and keeps it there. -/
theorem iterate_phaseStep_inf {delta p : F64} (hdelta : isInf delta = true) (hp : isFinite p = true) (k : Nat) :
    (phaseStep delta)^[k + 1] p = delta := by
  have hfirst : phaseStep delta p = delta := phaseStep_of_fadd_inf hdelta (fadd_finite_inf hp hdelta)
  have hfixed : phaseStep delta delta = delta :=
    phaseStep_of_fadd_inf hdelta ((sum_inf_inf hdelta hdelta).1 rfl).1
  rw [Function.iterate_succ_apply, hfirst, Function.iterate_fixed hfixed]

theorem i2f_zero : i2f 0 = fZero := by decide +kernel

/-- Settles O48: the product `TWO_PI · freq` over a zero, and `iterate_phaseStep_inf`. -/
theorem zeroSampleRate : Obligations.ZeroSampleRate := by
  unfold Obligations.ZeroSampleRate
  refine ⟨fun freq hrange hne => ?_, ?_, fun delta p hdelta hp k => iterate_phaseStep_inf hdelta hp k⟩
  · obtain ⟨hlo, hhi⟩ := hrange
    obtain ⟨hfinite, hsign, hnonzero, -⟩ := fmul_twoPi_i2f (n := freq) (by omega)
    have hzero : isZero fZero = true ∧ fSign fZero = false := by decide
    rw [phaseIncrement, i2f_zero, fdiv_nonzero_zero hfinite (hnonzero hne) hzero.1, hsign, hzero.2, Bool.bne_false]
    by_cases hneg : freq < 0
    · rw [decide_eq_true hneg, if_pos hneg]
      decide
    · rw [decide_eq_false hneg, if_neg hneg]
      decide
  · rw [phaseIncrement, i2f_zero]
    exact isNaN_fdiv_zero_zero (by decide +kernel) (by decide)

/-! ### Samples (R110, R118) -/

/-- A product with a factor that is not finite is not finite: only the last branch of `fmul` answers a finite value. -/
theorem isFinite_fmul_false {x y : F64} (h : isFinite x = false ∨ isFinite y = false) :
    isFinite (fmul x y) = false := by
  rw [isFinite_false_iff, isFinite_false_iff] at h
  rw [isFinite_false_iff]
  unfold fmul
  split
  · exact .inl (isNaN_quietNaN _ _ _)
  · split
    · split
      · exact .inl (isNaN_quietNaN _ _ _)
      · exact .inr (isInf_pack_infMag _)
    · rename_i hnan hinf
      rw [Bool.or_eq_true] at hnan hinf
      tauto

/-- A value that is not finite times a zero is a NaN. -/
theorem isNaN_fmul_zero {x y : F64} (hx : isFinite x = false) (hy : isZero y = true) : isNaN (fmul x y) = true := by
  rcases isFinite_false_iff.1 hx with hnan | hinf
  · exact isNaN_fmul (.inl hnan)
  · exact (isNaN_fmul_inf_zero hinf hy).1

/-- Settles O49: a NaN factor makes a NaN, and an infinite or NaN volume keeps both products from being finite. -/
theorem nonfiniteSamples : Obligations.NonfiniteSamples := by
  unfold Obligations.NonfiniteSamples frameSample
  refine ⟨fun sin vol r hsin hphase => ?_, fun sin vol r hvol henv => ?_, fun sin vol r hvol => ?_,
    fun sin vol r hvol => ?_, fun sin vol r hvol hsn hsz hen hez => ?_⟩
  · exact isNaN_fmul (.inl (isNaN_fmul (.inl (hsin _ hphase))))
  · exact isNaN_fmul_zero (isFinite_fmul_false (.inr hvol)) (by rw [henv]; decide)
  · exact isNaN_fmul (.inl (isNaN_fmul (.inr hvol)))
  · exact isFinite_fmul_false (.inl (isFinite_fmul_false (.inr hvol)))
  · have hfirst := fmul_inf (.inr hvol) hsn (isNaN_of_isInf hvol) hsz (isZero_of_isInf hvol)
    have hinf := isInf_pack_infMag (fSign (sin r.phase) != fSign vol)
    rw [hfirst, fmul_inf (.inl hinf) (isNaN_of_isInf hinf) hen (isZero_of_isInf hinf) hez,
      fSign_pack _ infMag_lt, fSign_pack _ infMag_lt]
    exact ⟨isInf_pack_infMag _, rfl⟩

/-- A finite value times one of magnitude at most 1 is finite: the product is no larger than the value. -/
theorem isFinite_fmul_of_le_one {x y : F64} (hx : isFinite x = true) (hone : fMag x ≤ fMag fOne)
    (hy : isFinite y = true) : isFinite (fmul x y) = true := by
  have hylt : fMag y < infMag := (isFinite_iff y).1 hy
  have hunits : unitsOfMag (fMag fOne) = 2 ^ 1074 := by decide +kernel
  have hround : roundMag (unitsOfMag (fMag x) * unitsOfMag (fMag y)) (2 ^ 1074) ≤ fMag y := by
    apply roundMag_le_of_le (by positivity) hylt.le
    calc unitsOfMag (fMag x) * unitsOfMag (fMag y)
      _ ≤ unitsOfMag (fMag fOne) * unitsOfMag (fMag y) := Nat.mul_le_mul_right _ (unitsOfMag_strictMono.monotone hone)
      _ = unitsOfMag (fMag y) * 2 ^ 1074 := by rw [hunits, Nat.mul_comm]
  rw [fmul_of_finite hx hy]
  exact isFinite_pack (hround.trans_lt hylt)

/-- Settles O50: with `SIN_BOUND` the first product is finite, and a finite value times the envelope 0 is a zero of its sign. -/
theorem idleFramesAreSilent : Obligations.IdleFramesAreSilent := by
  unfold Obligations.IdleFramesAreSilent
  intro sin vol r hsin hphase hvol hidle
  obtain ⟨hsfinite, hsone⟩ := hsin _ hphase
  have hfinite := isFinite_fmul_of_le_one hsfinite hsone hvol
  have hpositive : fSign fZero = false := by decide
  rw [frameSample, envelopeValue_idle hidle]
  constructor
  · exact isZero_fmul hfinite isFinite_fZero (.inr (by decide))
  · rw [fSign_fmul hfinite isFinite_fZero, fSign_fmul hsfinite hvol, hpositive, Bool.bne_false]

end Sys2Proof.Machine
end
